-- ==== Sys2Proof/Word.lean ====
section
/-!
DEFINITION. The word of the machine: every register, every memory cell and every instruction byte is one byte
(R5, R6: 8 bits, unsigned, bit 0 least significant), and a register index is one of eight (R13).
-/

namespace Sys2Proof

/-- One byte, the machine's only data width (R5 `XLEN`, R36). -/
abbrev Byte := BitVec 8

/-- The index of one of the eight registers R0..R7 (R5 `NREG`, R13). -/
abbrev RegIdx := Fin 8

end Sys2Proof
end

