-- ==== Sys2Proof/Config.lean ====
section
/-!
DEFINITION. The implementation parameters of the core (R5) and its one free value, the timer input (R31).
-/

namespace Sys2Proof.Config

/-- `MEMSIZE`: memory cells, addresses 0..255 (R5, R35). -/
abbrev memSize : Nat := 256

/-- What a cell holds at construction, and so what an address that the memory list does not name reads as
(R35, R49: zero-initialised). -/
abbrev memInit : Byte := 0x00

/-- `SP_INDEX`: R7 is the stack pointer (R5, R15). -/
abbrev spIndex : RegIdx := 7

/-- `IM_INDEX`: R5 is the interrupt mask (R5, R22). -/
abbrev imIndex : RegIdx := 5

/-- `IS_INDEX`: R6 is the interrupt status (R5, R23). -/
abbrev isIndex : RegIdx := 6

/-- `SP_INIT`: the stack top at construction, and the bound of the underflow check (R5, R15, R89). -/
abbrev stackTop : Byte := 0xF4

/-- `PC_INIT`: the entry point (R5, R16, R42). -/
abbrev pcInit : Nat := 0

/-- `INIT_GPR`: R0..R6 at construction (R5, R13, R131; the spec's decision D5, log entry 3). -/
abbrev initGpr : Byte := 0x00

/-- FL at construction: no comparison has happened (R19, R131; the spec's decision D4, log entry 3). -/
abbrev initFl : Byte := 0x00

/-- The end-of-stack boundary before any load. DESIGN CHOICE: the spec gives none (R131: "set by the load"); this is
what loading the empty program leaves (R134; log entry 2). -/
abbrev initEos : Nat := 0

/-- The "timer fired" bit of IS: bit 0 (R5, R118; the spec's decision D7, log entry 9). -/
abbrev timerBit : Byte := 0x01

/-- The number of interrupt lines, bit positions 0..7 of IM and IS (R5). -/
def interruptLines : List Nat := [0, 1, 2, 3, 4, 5, 6, 7]

/-- FREE VALUE. The timer input of the n-th interrupt check for which the state announces none. `TIMER_PERIOD` is OPEN
and the input is "under no law" (R5, R31, R129, R143), so nothing is known of this function (log entry 1). -/
opaque freeTick : Nat → Bool

end Sys2Proof.Config
end

