-- ==== Sys2Proof/Machine/State.lean ====
section
/-!
DEFINITION. The state of the core (R34), why a step can stop, and the state after construction (R131).
-/

namespace Sys2Proof.Machine

/-- The closed enumeration of fatal errors, each with the info it records (R107). Raising one sets the status; it is a
next state, not the end of the model (R108). -/
inductive FatalError where
  /-- Code 1. Decode: the opcode byte is not in the table (R109). -/
  | unknownInstruction (ir : Byte) (pc : Nat)
  /-- Code 2. The ALU: an operation code other than ADD, MUL, CMP; no step reaches it (R85, R114). -/
  | unsupportedALUOperation (ir : Byte)
  /-- Code 3. PUSH and CALL: `sp - 1 < eos` (R110). -/
  | stackOverflow (sp : Byte) (pc : Nat)
  /-- Code 4. POP and RET: `sp >= 0xF4` (R111). -/
  | stackUnderflow (sp : Byte) (pc : Nat)
  /-- Code 5. A memory access outside 0..255; the fetch is the only reachable source (R38, R112). -/
  | outOfBounds (address : Int)
  /-- Code 6. A register operand byte of 8 or more (R113). -/
  | invalidRegister (byte : Byte) (pc : Nat)
  /-- Code 7. The host's loader, never the core (R115). -/
  | fileNotFound
  deriving DecidableEq, Repr

/-- The run status (R26, R67). -/
inductive RunStatus where
  /-- A step exists. -/
  | running
  /-- HLT has executed. -/
  | halted
  /-- A fatal error was raised. -/
  | faulted (e : FatalError)
  deriving DecidableEq, Repr

/-- The memory array of 256 cells (R35) as its cells that differ from the construction value, addresses strictly rising. -/
abbrev Memory := List Host.Cell

/-- The complete state (R34), and after it the model's own two fields for the timer input (R31, log entry 1). -/
structure State where
  /-- R0..R7; R5 is IM, R6 is IS, R7 is SP (R13, R15, R22, R23). -/
  regs : Vector Byte 8
  /-- The program counter, 0..256, not reduced modulo 256 by the advance (R16, R17). -/
  pc : Nat
  /-- The flags register, 0b00000LGE (R19). -/
  fl : Byte
  /-- The memory array (R35). -/
  mem : Memory
  /-- The end-of-stack boundary, 0..256 (R25). -/
  eos : Nat
  /-- The run status (R26). -/
  status : RunStatus
  /-- The bytes emitted by PRN, oldest first (R30). -/
  out : List Byte
  /-- MODEL'S OWN. The timer inputs of the coming interrupt checks that the host has announced, next one first. -/
  ticks : List Bool
  /-- MODEL'S OWN. How many interrupt checks have run; it indexes the free timer input. -/
  tickIndex : Nat
  deriving DecidableEq, Repr

/-- Why `step` has no next state. -/
inductive Fault where
  /-- Raised by `step` in status Halted: no step exists (R67, R77). Safe: a stuck state. -/
  | halted
  /-- Raised by `step` in status Faulted: no step exists (R67, R77). Safe: a stuck state. -/
  | faulted (e : FatalError)
  deriving DecidableEq, Repr

/-- What is refused. -/
inductive Refusal where
  /-- Raised by `exec` for an instruction without a meaning; no arm does. Safe. -/
  | notModelled (mnemonic : String)
  /-- Raised by `boot` at the host boundary: more than 256 bytes (R134). Safe: such a program has no run. -/
  | programTooLong (length : Nat)
  /-- Raised by `boot` at the host boundary: a value above 255 (R134). Safe: such a program has no run. -/
  | programValueTooLarge
  deriving DecidableEq, Repr

/-- The state after construction and before any load (R131). `eos` before the load is log entry 2, the two timer fields
log entry 1. -/
def State.reset : State where
  regs := #v[Config.initGpr, Config.initGpr, Config.initGpr, Config.initGpr, Config.initGpr, Config.initGpr,
    Config.initGpr, Config.stackTop]
  pc := Config.pcInit
  fl := Config.initFl
  mem := []
  eos := Config.initEos
  status := .running
  out := []
  ticks := []
  tickIndex := 0

/-- What a step, or a meaning, answers. -/
abbrev StepOutcome := Host.Outcome State Fault Refusal

/-- What a handler answers: the state it leaves, or the error it raises. -/
abbrev Result := Except FatalError State

end Sys2Proof.Machine
end

