-- ==== Sys2Proof/Machine/Flags.lean ====
section
/-!
DEFINITION. The flags register: its three bits (R19), the comparison that writes it (R84) and the test that reads it
(R21).
-/

namespace Sys2Proof.Machine

/-- FL = Equal, E in bit 0 (R19). -/
def flEqual : Byte := 0x01

/-- FL = Greater, G in bit 1 (R19). -/
def flGreater : Byte := 0x02

/-- FL = Less, L in bit 2 (R19). -/
def flLess : Byte := 0x04

/-- The whole new FL of a comparison, unsigned (R84). -/
def compareFlags (a b : Byte) : Byte :=
  if a.toNat = b.toNat then flEqual else if a.toNat < b.toNat then flLess else flGreater

/-- "FL = Equal" means FL = 0x01 (R21). -/
def isEqual (fl : Byte) : Bool := fl == flEqual

end Sys2Proof.Machine
end

