-- ==== Sys2Proof/Syntax.lean ====
section
/-!
DEFINITION. The instruction set: the fourteen instructions of R1, one constructor per row of the opcode table (R57).
An operand is the whole operand byte (R54). A register operand stays the raw byte, because a byte of 8 or more still
decodes to its instruction and faults only when the instruction uses it (R62).
-/

namespace Sys2Proof

/-- The fourteen instructions, operands in encoding order (R56, R57). -/
inductive Instr where
  /-- ADD Ra,Rb (R82). -/
  | add (ra rb : Byte)
  /-- MUL Ra,Rb (R83). -/
  | mul (ra rb : Byte)
  /-- CMP Ra,Rb (R84). -/
  | cmp (ra rb : Byte)
  /-- PUSH Rr (R90). -/
  | push (r : Byte)
  /-- POP Rr (R91). -/
  | pop (r : Byte)
  /-- CALL Rr (R92). -/
  | call (r : Byte)
  /-- RET (R93). -/
  | ret
  /-- JMP Rr (R96). -/
  | jmp (r : Byte)
  /-- JEQ Rr (R97). -/
  | jeq (r : Byte)
  /-- JNE Rr (R98). -/
  | jne (r : Byte)
  /-- LDI Rr,value (R100). -/
  | ldi (r value : Byte)
  /-- ST Ra,Rb: the address in Ra, the value in Rb (R101). -/
  | st (ra rb : Byte)
  /-- PRN Rr (R102). -/
  | prn (r : Byte)
  /-- HLT (R103). -/
  | hlt
  deriving DecidableEq, Repr

/-- The operand bytes that name registers, in the order in which they are checked (R56, R113). -/
def Instr.registerOperands : Instr → List Byte
  | .add ra rb => [ra, rb]
  | .mul ra rb => [ra, rb]
  | .cmp ra rb => [ra, rb]
  | .push r => [r]
  | .pop r => [r]
  | .call r => [r]
  | .ret => []
  | .jmp r => [r]
  | .jeq r => [r]
  | .jne r => [r]
  | .ldi r _ => [r]
  | .st ra rb => [ra, rb]
  | .prn r => [r]
  | .hlt => []

end Sys2Proof
end

