-- ==== Sys2Proof/WellFormed.lean ====
section
/-!
DEFINITION. Well-formed instructions: every register operand names a register. The check is on the syntax alone; an
ill-formed instruction has an encoding, decodes, and raises InvalidRegister when it runs (R62).
-/

namespace Sys2Proof

/-- An operand byte names a register when it is 0..7 (R7 `reg`, R54). -/
def namesRegister (b : Byte) : Bool := b.toNat < 8

/-- Every register operand of the instruction names a register. -/
def Instr.wellFormed (i : Instr) : Bool := i.registerOperands.all namesRegister

end Sys2Proof
end

