-- ==== Sys2Proof/Decode.lean ====
section
/-!
DEFINITION. Encoding: the opcode bytes (R57), the fields of an opcode byte (R52), the decoder and, after it, the encoder.
-/

namespace Sys2Proof

/-! ### The opcode map (R57) -/

namespace Opcode

/-- 1010 0000 -/
def add : Byte := 0xA0
/-- 1010 0010 -/
def mul : Byte := 0xA2
/-- 1010 0111 -/
def cmp : Byte := 0xA7
/-- 0100 0101 -/
def push : Byte := 0x45
/-- 0100 0110 -/
def pop : Byte := 0x46
/-- 0101 0000 -/
def call : Byte := 0x50
/-- 0001 0001 -/
def ret : Byte := 0x11
/-- 0101 0100 -/
def jmp : Byte := 0x54
/-- 0101 0101 -/
def jeq : Byte := 0x55
/-- 0101 0110 -/
def jne : Byte := 0x56
/-- 1000 0010 -/
def ldi : Byte := 0x82
/-- 1000 0100 -/
def st : Byte := 0x84
/-- 0100 0111 -/
def prn : Byte := 0x47
/-- 0000 0001 -/
def hlt : Byte := 0x01

end Opcode

/-- The fixed table that maps an opcode byte to its instruction, given the two operand bytes of the latch (R57, R59). An
instruction takes only as many of them as its operand count (R55, R72). -/
def opcodeRows : List (Byte × (Byte → Byte → Instr)) :=
  [(Opcode.add, fun opA opB => .add opA opB),
    (Opcode.mul, fun opA opB => .mul opA opB),
    (Opcode.cmp, fun opA opB => .cmp opA opB),
    (Opcode.push, fun opA _ => .push opA),
    (Opcode.pop, fun opA _ => .pop opA),
    (Opcode.call, fun opA _ => .call opA),
    (Opcode.ret, fun _ _ => .ret),
    (Opcode.jmp, fun opA _ => .jmp opA),
    (Opcode.jeq, fun opA _ => .jeq opA),
    (Opcode.jne, fun opA _ => .jne opA),
    (Opcode.ldi, fun opA opB => .ldi opA opB),
    (Opcode.st, fun opA opB => .st opA opB),
    (Opcode.prn, fun opA _ => .prn opA),
    (Opcode.hlt, fun _ _ => .hlt)]

/-- The fourteen opcode bytes, in the table's order (R57). -/
def opcodeTable : List Byte := opcodeRows.map Prod.fst

/-! ### The fields of an opcode byte, `AABCDDDD` (R52) -/

/-- The operand count `n = ir[7:6]` (R51). -/
def operandCount (ir : Byte) : Nat := (ir.extractLsb' 6 2).toNat

/-- The sets-PC bit `C = ir[4]` (R52, R73). -/
def setsPc (ir : Byte) : Bool := ir.getLsbD 4

/-- The length in bytes, known from the first byte alone (R51, R63). -/
def instrLength (ir : Byte) : Nat := operandCount ir + 1

/-! ### The decoder -/

/-- The three bytes latched by the fetch of a step, at pc, pc+1 and pc+2 (R28, R69). They live within one step only. -/
structure Latch where
  ir : Byte
  opA : Byte
  opB : Byte
  deriving DecidableEq, Repr

/-- The instruction of a latch; none when the opcode byte is not in the table (R60, R71). The whole opcode byte is
compared, so no bit is a don't-care (R59). -/
def decodeLatch (l : Latch) : Option Instr :=
  (opcodeRows.find? (fun row => row.1 == l.ir)).map (fun row => row.2 l.opA l.opB)

/-- Why a byte sequence is no instruction. -/
inductive DecodeReject where
  /-- The opcode byte is not one of the fourteen (R60). -/
  | unknownInstruction (ir : Byte)
  /-- The sequence ends before the instruction does. -/
  | truncated
  deriving DecidableEq, Repr

/-- Decode the instruction at the head of a byte sequence, in increasing address order (R39), and give the bytes after it.
Total on any bytes. -/
def decode : List Byte → Except DecodeReject (Instr × List Byte)
  | [] => .error .truncated
  | ir :: rest =>
    match decodeLatch ⟨ir, rest.getD 0 0, rest.getD 1 0⟩ with
    | none => .error (.unknownInstruction ir)
    | some i =>
      if rest.length < operandCount ir then .error .truncated
      else .ok (i, rest.drop (operandCount ir))

/-- The latch whose bytes are the low `nbits` bits of `w`, first byte in bits 7..0 (the opcode table's numbering). -/
def latchOfWord (nbits w : Nat) : Latch :=
  let v := w % 2 ^ nbits
  ⟨BitVec.ofNat 8 v, BitVec.ofNat 8 (v / 256), BitVec.ofNat 8 (v / 65536)⟩

/-- The instruction the decoder reads from an instruction whose bits are `w`, every bit above `nbits` zero. -/
def decodeTableWord (nbits w : Nat) : Option Instr := decodeLatch (latchOfWord nbits w)

/-! ### The encoder -/

/-- The opcode byte of an instruction (R57). -/
def Instr.opcode : Instr → Byte
  | .add _ _ => Opcode.add
  | .mul _ _ => Opcode.mul
  | .cmp _ _ => Opcode.cmp
  | .push _ => Opcode.push
  | .pop _ => Opcode.pop
  | .call _ => Opcode.call
  | .ret => Opcode.ret
  | .jmp _ => Opcode.jmp
  | .jeq _ => Opcode.jeq
  | .jne _ => Opcode.jne
  | .ldi _ _ => Opcode.ldi
  | .st _ _ => Opcode.st
  | .prn _ => Opcode.prn
  | .hlt => Opcode.hlt

/-- The operand bytes of an instruction in increasing address order (R56). -/
def Instr.operands : Instr → List Byte
  | .add ra rb => [ra, rb]
  | .mul ra rb => [ra, rb]
  | .cmp ra rb => [ra, rb]
  | .push r => [r]
  | .pop r => [r]
  | .call r => [r]
  | .ret => []
  | .jmp r => [r]
  | .jeq r => [r]
  | .jne r => [r]
  | .ldi r value => [r, value]
  | .st ra rb => [ra, rb]
  | .prn r => [r]
  | .hlt => []

/-- The bytes of an instruction in increasing address order (R39, R56). -/
def encode (i : Instr) : List Byte := i.opcode :: i.operands

end Sys2Proof
end

