-- ==== Sys2Proof/Machine/Ops.lean ====
section
/-!
DEFINITION. The named operations over memory and registers, the stack's two moves, the timer input, the interrupt
check, raising a fatal error, the PC advance and the load. There is no return from an interrupt or from an error to
stand beside them: the core has none (R106, R127).
-/

namespace Sys2Proof.Machine

/-! ### The memory list -/

/-- The byte at an address; an address the list does not name holds the construction value (R49). -/
def Memory.read : Memory → Nat → Byte
  | [], _ => Config.memInit
  | (b, w) :: m, a => if a = b then w else Memory.read m a

/-- Put a byte at its place in the rising order. -/
def Memory.insert : Memory → Nat → Byte → Memory
  | [], a, v => [(a, v)]
  | (b, w) :: m, a, v =>
    if a < b then (a, v) :: (b, w) :: m
    else if a = b then (a, v) :: m
    else (b, w) :: Memory.insert m a v

/-- Store a byte at an address, keeping the canonical form: storing the construction value removes the entry. -/
def Memory.write (m : Memory) (a : Nat) (v : Byte) : Memory :=
  if v = Config.memInit then m.filter (fun c => c.1 != a) else m.insert a v

/-- The entries lie at strictly rising addresses from `lo` on, inside the address space, none at the construction value. -/
def Memory.risingFrom : Nat → Memory → Bool
  | _, [] => true
  | lo, (a, v) :: m => decide (lo ≤ a) && decide (a < Config.memSize) && v != Config.memInit && Memory.risingFrom (a + 1) m

/-- The canonical form. -/
def Memory.wf (m : Memory) : Bool := Memory.risingFrom 0 m

/-- Store bytes at consecutive addresses from `a` on; a byte beyond the address space is dropped. -/
def Memory.writeBytes : Memory → Nat → List Byte → Memory
  | m, _, [] => m
  | m, a, v :: vs => Memory.writeBytes (if a < Config.memSize then m.write a v else m) (a + 1) vs

/-! ### Registers and plain fields -/

/-- `x[i]` (R7). Every register is read and written by this one path, R5, R6 and R7 too (R14). -/
def State.reg (s : State) (i : RegIdx) : Byte := s.regs.get i

/-- `x[i] <- v` (R7). The type of `v` is the reduction modulo 256 (R13). -/
def State.setReg (s : State) (i : RegIdx) (v : Byte) : State := { s with regs := s.regs.set i v }

/-- The stack pointer, R7 (R15). -/
def State.sp (s : State) : Byte := s.reg Config.spIndex

/-- The interrupt mask, R5 (R22). -/
def State.im (s : State) : Byte := s.reg Config.imIndex

/-- The interrupt status, R6 (R23). -/
def State.is (s : State) : Byte := s.reg Config.isIndex

/-- `pc <- t` (R7). -/
def State.setPc (s : State) (t : Nat) : State := { s with pc := t }

/-- `fl <- v` (R7). -/
def State.setFl (s : State) (v : Byte) : State := { s with fl := v }

/-- Set the run status (R26). -/
def State.setStatus (s : State) (r : RunStatus) : State := { s with status := r }

/-- `emit(v)`: one output event (R7, R30). -/
def State.emit (s : State) (v : Byte) : State := { s with out := s.out ++ [v] }

/-! ### Memory accesses (R36, R38) -/

/-- Read at a byte address: each is legal (R40). -/
def State.load (s : State) (a : Byte) : Byte := s.mem.read a.toNat

/-- Write at a byte address, the direct path that the interrupt save takes (R121). -/
def State.store (s : State) (a v : Byte) : State := { s with mem := s.mem.write a.toNat v }

/-- The address of an access lies in the memory array (R38). -/
def inMemory (a : Int) : Bool := decide (0 ≤ a) && decide (a < Config.memSize)

/-- `MemRead(a, 1)` (R7, R38). -/
def State.memRead (s : State) (a : Int) : Except FatalError Byte :=
  if inMemory a then .ok (s.mem.read a.toNat) else .error (.outOfBounds a)

/-- `MemWrite(a, 1, v)` (R7, R38). -/
def State.memWrite (s : State) (a : Int) (v : Byte) : Result :=
  if inMemory a then .ok { s with mem := s.mem.write a.toNat v } else .error (.outOfBounds a)

/-! ### Raising a fatal error (R108) and the PC advance (R73) -/

/-- `raise K(info)`: the status, and nothing else (R108, R116). -/
def State.raise (s : State) (e : FatalError) : State := s.setStatus (.faulted e)

/-- The numeric code of an error kind (R107). -/
def FatalError.code : FatalError → Nat
  | .unknownInstruction _ _ => 1
  | .unsupportedALUOperation _ => 2
  | .stackOverflow _ _ => 3
  | .stackUnderflow _ _ => 4
  | .outOfBounds _ => 5
  | .invalidRegister _ _ => 6
  | .fileNotFound => 7

/-- `if ir[4] = 0: pc <- pc + n + 1`, with no reduction modulo 256 (R73, R17). -/
def State.advance (s : State) (ir : Byte) : State :=
  if setsPc ir then s else s.setPc (s.pc + operandCount ir + 1)

/-- The end of a dispatch: after a handler that returned, the advance (R73, R74); after one that raised, the state that
the handler started from with the error as its status (R75, R76, R116). -/
def State.complete (s : State) (ir : Byte) : Result → StepOutcome
  | .ok s' => .next (s'.advance ir)
  | .error e => .next (s.raise e)

/-! ### The stack (R87) -/

/-- `sp <- sp - 1`, modulo 256 (R13). -/
def State.decSp (s : State) : State := s.setReg Config.spIndex (s.sp - 1)

/-- `sp <- sp + 1`, modulo 256 (R13). -/
def State.incSp (s : State) : State := s.setReg Config.spIndex (s.sp + 1)

/-- `sp - 1 < eos`, on integers (R88). -/
def State.overflow (s : State) : Bool := decide ((s.sp.toNat : Int) - 1 < s.eos)

/-- `sp >= 0xF4` (R89). -/
def State.underflow (s : State) : Bool := decide (Config.stackTop.toNat ≤ s.sp.toNat)

/-- The push of PUSH and CALL: the overflow check, then the decrement, then the write of a value that is read after the
decrement (R88, R90, R92). -/
def State.push (s : State) (value : State → Byte) : Result :=
  if s.overflow then .error (.stackOverflow s.sp s.pc)
  else s.decSp.memWrite s.decSp.sp.toNat (value s.decSp)

/-- The read of POP and RET at the stack top, after the underflow check (R89, R91, R93). -/
def State.top (s : State) : Except FatalError Byte :=
  if s.underflow then .error (.stackUnderflow s.sp s.pc) else s.memRead s.sp.toNat

/-! ### The timer input (R31) -/

/-- The `tick` of the next interrupt check: the one the state announces, else the free value. -/
def State.tickInput (s : State) : Bool :=
  match s.ticks with
  | t :: _ => t
  | [] => Config.freeTick s.tickIndex

/-- The state after that input has been sampled. -/
def State.sampleTick (s : State) : State := { s with ticks := s.ticks.tail, tickIndex := s.tickIndex + 1 }

/-! ### The interrupt check (R118 to R123) -/

/-- Step 1: the timer sets its bit of IS by OR, whether or not IM enables it (R118). -/
def State.timerStage (s : State) (tick : Bool) : State :=
  s.setReg Config.isIndex (if tick then s.is ||| Config.timerBit else s.is)

/-- Step 2: bit `i` of `x[5] & x[6]` (R119, R125). -/
def State.masked (s : State) (i : Nat) : Bool := s.im.getLsbD i && s.is.getLsbD i

/-- One push of the save: decrement modulo 256, then write, with no overflow check (R121). -/
def State.pushDirect (s : State) (v : Byte) : State := s.decSp.store s.decSp.sp v

/-- The nine values of the save in push order: PC, Flags, R0..R6 (R120, R122). -/
def State.savedValues (s : State) : List Byte :=
  [BitVec.ofNat 8 s.pc, s.fl, s.reg 0, s.reg 1, s.reg 2, s.reg 3, s.reg 4, s.reg 5, s.reg 6]

/-- Clear IM and IS (R120, R125). -/
def State.clearInterrupts (s : State) : State := (s.setReg Config.imIndex 0).setReg Config.isIndex 0

/-- TAKING AN INTERRUPT: clear IM and IS, then save state on the stack. No control transfer (R120 to R123). -/
def State.takeInterrupt (s : State) : State :=
  s.clearInterrupts.savedValues.foldl State.pushDirect s.clearInterrupts

/-- Step 3: the scan in ascending order, which stops at the first masked line (R120, R126). -/
def State.scanLines (s : State) : List Nat → State
  | [] => s
  | i :: rest => if s.masked i then s.takeInterrupt else s.scanLines rest

/-- `InterruptCheck(tick)` (R120). -/
def State.interruptCheck (s : State) (tick : Bool) : State :=
  (s.timerStage tick).scanLines Config.interruptLines

/-! ### The fetch (R69) -/

/-- Three reads, at pc, pc+1 and pc+2, whatever the instruction's length (R69). -/
def State.fetch (s : State) : Except FatalError Latch := do
  let ir ← s.memRead s.pc
  let opA ← s.memRead (s.pc + 1)
  let opB ← s.memRead (s.pc + 2)
  .ok ⟨ir, opA, opB⟩

/-! ### The load (R29, R134) -/

/-- The effect of a load: the bytes at 0 on, and `eos` just past them (R134). -/
def State.loadProgram (s : State) (p : List Byte) : State :=
  { s with mem := s.mem.writeBytes 0 p, eos := p.length }

/-- A run begins: the host delivers a program to the constructed core, the only time the load port is usable (R29, R136).
The two checks stand at the host boundary (R134). -/
def boot (p : List Nat) : StepOutcome :=
  if Config.memSize < p.length then .refused (.programTooLong p.length)
  else if p.any (fun v => decide (255 < v)) then .refused .programValueTooLarge
  else .next (State.reset.loadProgram (p.map (BitVec.ofNat 8)))

end Sys2Proof.Machine
end

