-- ==== Sys2Proof/Machine/Operands.lean ====
section
/-!
DEFINITION. The operand forms (R54, R105): register direct, immediate, register indirect and implicit SP-relative. The
last is the stack's own (`State.push`, `State.top` in Ops).
-/

namespace Sys2Proof.Machine

/-- `reg(b)`: the whole byte is the index, and 8 or more raises InvalidRegister; no bit is masked off (R7, R54, R113). -/
def State.regOperand (s : State) (b : Byte) : Except FatalError RegIdx :=
  if h : b.toNat < 8 then .ok ⟨b.toNat, h⟩ else .error (.invalidRegister b s.pc)

/-- The two register operands of format RR, opA checked first (R113). -/
def State.regPair (s : State) (ra rb : Byte) : Except FatalError (RegIdx × RegIdx) := do
  let a ← s.regOperand ra
  let b ← s.regOperand rb
  .ok (a, b)

/-- An immediate operand: the byte as it is (R54). -/
def immediate (v : Byte) : Byte := v

/-- A register-indirect address: the value of the register, 0..255 (R54, R105). -/
def State.indirect (s : State) (r : RegIdx) : Nat := (s.reg r).toNat

end Sys2Proof.Machine
end

