-- ==== Sys2Proof/Machine/Alu.lean ====
section
/-!
DEFINITION. The ALU (R81, R85, R86) and the meanings of ADD, MUL and CMP.
-/

namespace Sys2Proof.Machine

/-- The sum modulo 256; no carry is recorded (R82, R86). -/
def addBytes (a b : Byte) : Byte := BitVec.ofNat 8 (a.toNat + b.toNat)

/-- The product modulo 256; the high byte is recorded nowhere (R83, R86). -/
def mulBytes (a b : Byte) : Byte := BitVec.ofNat 8 (a.toNat * b.toNat)

/-- The ALU: "an operation code and two register indices" (R81). Any other operation code is an error (R85). -/
def State.alu (s : State) (op : Byte) (a b : RegIdx) : Result :=
  if op = Opcode.add then .ok (s.setReg a (addBytes (s.reg a) (s.reg b)))
  else if op = Opcode.mul then .ok (s.setReg a (mulBytes (s.reg a) (s.reg b)))
  else if op = Opcode.cmp then .ok (s.setFl (compareFlags (s.reg a) (s.reg b)))
  else .error (.unsupportedALUOperation op)

/-- ADD (R82). -/
def execAdd (ra rb : Byte) (s : State) : StepOutcome :=
  s.complete Opcode.add do
    let (a, b) ← s.regPair ra rb
    s.alu Opcode.add a b

/-- MUL (R83). -/
def execMul (ra rb : Byte) (s : State) : StepOutcome :=
  s.complete Opcode.mul do
    let (a, b) ← s.regPair ra rb
    s.alu Opcode.mul a b

/-- CMP (R84). -/
def execCmp (ra rb : Byte) (s : State) : StepOutcome :=
  s.complete Opcode.cmp do
    let (a, b) ← s.regPair ra rb
    s.alu Opcode.cmp a b

end Sys2Proof.Machine
end

