-- ==== Sys2Proof/Machine/Data.lean ====
section
/-!
DEFINITION. The meanings of LDI, ST, PRN and HLT.
-/

namespace Sys2Proof.Machine

/-- LDI (R100). -/
def execLdi (rr value : Byte) (s : State) : StepOutcome :=
  s.complete Opcode.ldi do
    let r ← s.regOperand rr
    .ok (s.setReg r (immediate value))

/-- ST: the value of register b to the address in register a (R101). -/
def execSt (ra rb : Byte) (s : State) : StepOutcome :=
  s.complete Opcode.st do
    let (a, b) ← s.regPair ra rb
    s.memWrite (s.indirect a) (s.reg b)

/-- PRN (R102). -/
def execPrn (rr : Byte) (s : State) : StepOutcome :=
  s.complete Opcode.prn do
    let r ← s.regOperand rr
    .ok (s.emit (s.reg r))

/-- HLT; the advance follows it too (R103, R74). -/
def execHlt (s : State) : StepOutcome := s.complete Opcode.hlt (.ok (s.setStatus .halted))

end Sys2Proof.Machine
end

