-- ==== Sys2Proof/Machine/Flow.lean ====
section
/-!
DEFINITION. The meanings of the flow-control instructions JMP, JEQ and JNE (R95). Each has the sets-PC bit, so the
dispatcher adds no advance and an untaken branch makes its own.
-/

namespace Sys2Proof.Machine

/-- JMP (R96). -/
def execJmp (rr : Byte) (s : State) : StepOutcome :=
  s.complete Opcode.jmp do
    let r ← s.regOperand rr
    .ok (s.setPc (s.indirect r))

/-- JEQ: taken when FL = Equal, else on by its length (R97). -/
def execJeq (rr : Byte) (s : State) : StepOutcome :=
  s.complete Opcode.jeq do
    let r ← s.regOperand rr
    .ok (s.setPc (if isEqual s.fl then s.indirect r else s.pc + 2))

/-- JNE: taken when FL != Equal, else on by its length (R98). -/
def execJne (rr : Byte) (s : State) : StepOutcome :=
  s.complete Opcode.jne do
    let r ← s.regOperand rr
    .ok (s.setPc (if isEqual s.fl then s.pc + 2 else s.indirect r))

end Sys2Proof.Machine
end

