-- ==== Sys2Proof/Machine/Stack.lean ====
section
/-!
DEFINITION. The meanings of the stack instructions PUSH, POP, CALL and RET.
-/

namespace Sys2Proof.Machine

/-- PUSH: the register is read after the decrement, so PUSH R7 stores the decremented SP (R90). -/
def execPush (rr : Byte) (s : State) : StepOutcome :=
  s.complete Opcode.push do
    let r ← s.regOperand rr
    s.push (fun s' => s'.reg r)

/-- POP: SP is read after the register write, so POP R7 leaves the popped byte plus one (R91). -/
def execPop (rr : Byte) (s : State) : StepOutcome :=
  s.complete Opcode.pop do
    let r ← s.regOperand rr
    let v ← s.top
    .ok (s.setReg r v).incSp

/-- CALL: push pc + 2, then jump to the register, read after the push (R92). -/
def execCall (rr : Byte) (s : State) : StepOutcome :=
  s.complete Opcode.call do
    let r ← s.regOperand rr
    let s' ← s.push (fun s' => BitVec.ofNat 8 (s'.pc + 2))
    .ok (s'.setPc (s'.indirect r))

/-- RET: pop into pc (R93). -/
def execRet (s : State) : StepOutcome :=
  s.complete Opcode.ret do
    let v ← s.top
    .ok (s.setPc v.toNat).incSp

end Sys2Proof.Machine
end

