-- ==== Sys2Proof/Machine/Cycle.lean ====
section
/-!
DEFINITION. One pass of the run loop (R68): fetch, interrupt check, decode, execute, advance; and the placing of an
instruction where the fetch reads.
-/

namespace Sys2Proof.Machine

/-- Decode and execute the latched instruction on the state the interrupt check left. An unknown opcode byte raises, and
the effects of the check remain (R71). -/
def State.dispatch (s : State) (l : Latch) : StepOutcome :=
  match decodeLatch l with
  | none => .next (s.raise (.unknownInstruction l.ir s.pc))
  | some i => exec i s

/-- `Step(tick)` of a running core (R68). A fetch that raises changes nothing and samples no input (R69, R70). -/
def State.cycle (s : State) (tick : Bool) : StepOutcome :=
  match s.fetch with
  | .error e => .next (s.raise e)
  | .ok l => (s.sampleTick.interruptCheck tick).dispatch l

/-- The bytes of an instruction word: the low `nbits` bits of `w`, first byte in bits 7..0, padded with zeros to the
longest instruction. -/
def wordBytes (nbits w : Nat) : List Byte :=
  let l := latchOfWord nbits w
  [l.ir, l.opA, l.opB]

/-- The state with an instruction word stored where the next fetch reads. -/
def State.placeWord (s : State) (nbits w : Nat) : State :=
  { s with mem := s.mem.writeBytes s.pc (wordBytes nbits w) }

end Sys2Proof.Machine
end

