-- ==== Sys2Proof/Machine/Step.lean ====
section
/-!
DEFINITION. The step function: a step exists only in status Running (R67, R77).
-/

namespace Sys2Proof.Machine

/-- One step, with the timer input the state supplies (R68, R31). -/
def step (s : State) : Host.Outcome State Fault Refusal :=
  match s.status with
  | .running => s.cycle s.tickInput
  | .halted => .fault .halted
  | .faulted e => .fault (.faulted e)

/-- The state with an instruction word stored at pc, where `step` fetches next. Nothing else changes (log entry 4). -/
def State.withFetchWord (s : State) (nbits w : Nat) : State := s.placeWord nbits w

end Sys2Proof.Machine
end

