-- ==== Sys2Proof/Safety.lean ====
section
/-!
DEFINITION. The terms the claims use: the invariant of a core, how a run ends (R78), raising from a handler (R76), taking
an interrupt, and the frame of an instruction.
-/

namespace Sys2Proof.Machine

/-- The values FL can hold (R21). -/
def legalFlags : List Byte := [0x00, 0x01, 0x02, 0x04]

/-- What holds of every core: memory in its canonical form, the PC and the end-of-stack boundary in 0..256 (R17, R25), and
FL one of its four values (R21). -/
structure State.Inv (s : State) : Prop where
  mem_wf : s.mem.wf = true
  pc_le : s.pc ≤ 256
  eos_le : s.eos ≤ 256
  fl_legal : s.fl ∈ legalFlags

/-- A normal end (R78). -/
def State.CleanEnd (s : State) : Prop := s.status = .halted

/-- An error end (R78). -/
def State.ErrorEnd (s : State) : Prop := ∃ e, s.status = .faulted e

/-- The instruction raises `e` and changes nothing but the status (R76, R108). -/
def Raises (i : Instr) (s : State) (e : FatalError) : Prop := exec i s = .next { s with status := .faulted e }

/-- The interrupt check with input `tick` takes an interrupt: `IM & IS` is not zero after the timer stage (R119, R120). -/
def State.TakesInterrupt (s : State) (tick : Bool) : Prop :=
  s.reg 5 &&& (if tick then s.reg 6 ||| 0x01 else s.reg 6) ≠ 0

/-- The state in which the instruction of a step runs: after the sampled timer input and the interrupt check (R68). -/
def State.checked (s : State) : State := s.sampleTick.interruptCheck s.tickInput

/-- The latch of a fetch at pc (R28, R69). -/
def State.latch (s : State) : Latch := ⟨s.mem.read s.pc, s.mem.read (s.pc + 1), s.mem.read (s.pc + 2)⟩

/-- THE FRAME of a step from `s` to `t`: every register outside `regs` and every byte of memory outside `addrs` is as
before, and so are the end-of-stack boundary and the timer inputs to come. -/
structure Frame (s t : State) (regs : List RegIdx) (addrs : List Nat) : Prop where
  reg : ∀ r, r ∉ regs → t.reg r = s.reg r
  mem : ∀ a, a ∉ addrs → t.mem.read a = s.mem.read a
  eos : t.eos = s.eos
  ticks : t.ticks = s.ticks
  tickIndex : t.tickIndex = s.tickIndex

/-- Both register operands are checked, opA first (R113). -/
def ChecksPair (i : Instr) (s : State) (ra rb : Byte) : Prop :=
  (8 ≤ ra.toNat → Raises i s (.invalidRegister ra s.pc)) ∧
    (ra.toNat < 8 → 8 ≤ rb.toNat → Raises i s (.invalidRegister rb s.pc))

/-- The one register operand is checked (R113). -/
def ChecksOne (i : Instr) (s : State) (r : Byte) : Prop :=
  8 ≤ r.toNat → Raises i s (.invalidRegister r s.pc)

end Sys2Proof.Machine
end

