-- ==== Sys2Proof/Certificates/Slice0/Obligations.lean ====
section
/-!
DEFINITION. The statements for the provers, from the numbered rules of the spec.
-/

open Sys2Proof Sys2Proof.Machine

/-! ### Encoding -/

/-- R51, R54, R56: an encoding, whatever bytes stand after it, decodes to its instruction and leaves those bytes. It holds
for every instruction and every operand byte, well-formed or not. -/
def Obligations.DecodeOfEncodeGivesTheInstruction : Prop :=
  ∀ (i : Instr) (rest : List Byte), decode (encode i ++ rest) = .ok (i, rest)

/-- R59: only the bytes that encode an instruction decode to it, and the opcode byte is one of the fourteen listed values,
compared whole. -/
def Obligations.OnlyTheEncodingDecodesToAnInstruction : Prop :=
  (∀ (bytes rest : List Byte) (i : Instr), decode bytes = .ok (i, rest) → bytes = encode i ++ rest) ∧
    ∀ (l : Latch) (i : Instr), decodeLatch l = some i →
      l.ir = i.opcode ∧
        l.ir ∈ [0xA0#8, 0xA2#8, 0xA7#8, 0x45#8, 0x46#8, 0x50#8, 0x11#8, 0x54#8, 0x55#8, 0x56#8, 0x82#8, 0x84#8, 0x47#8,
          0x01#8]

/-- R57, R8: words written out from the opcode map, one of each format and family. -/
def Obligations.WordsOfTheOpcodeMapDecode : Prop :=
  decode [0b10100000, 0, 1] = .ok (.add 0 1, []) ∧ decode [0b10100010, 0, 1] = .ok (.mul 0 1, []) ∧
    decode [0b10100111, 0, 2] = .ok (.cmp 0 2, []) ∧ decode [0b01000101, 0] = .ok (.push 0, []) ∧
    decode [0b00010001] = .ok (.ret, []) ∧ decode [0b01010101, 4] = .ok (.jeq 4, []) ∧
    decode [0b10000010, 3, 0xAB] = .ok (.ldi 3 0xAB, []) ∧ decode [0b10000100, 0, 1] = .ok (.st 0 1, []) ∧
    decode [0b01000111, 0] = .ok (.prn 0, []) ∧ decode [0b00000001] = .ok (.hlt, [])

/-- R58: (a) the fourteen values are distinct; (b) ir[7:6] is the operand count of each instruction; (c) the sets-PC bit is
1 exactly for CALL, RET, JMP, JEQ and JNE. -/
def Obligations.OpcodeFieldsFollowTheInstructions : Prop :=
  opcodeTable.Nodup ∧ opcodeTable.length = 14 ∧
    ∀ i : Instr,
      i.opcode ∈ opcodeTable ∧
      operandCount i.opcode =
        (match i with
          | .add _ _ | .mul _ _ | .cmp _ _ | .ldi _ _ | .st _ _ => 2
          | .prn _ | .push _ | .pop _ | .call _ | .jmp _ | .jeq _ | .jne _ => 1
          | .ret | .hlt => 0) ∧
      setsPc i.opcode =
        (match i with
          | .call _ | .ret | .jmp _ | .jeq _ | .jne _ => true
          | .add _ _ | .mul _ _ | .cmp _ _ | .ldi _ _ | .st _ _ | .prn _ | .push _ | .pop _ | .hlt => false)

/-- R60, R53, R61: 242 of the 256 opcode bytes decode to nothing whatever the operand bytes, all those with an operand
count of 3 and 0x00 among them. -/
def Obligations.UnlistedOpcodesDecodeToNothing : Prop :=
  (∀ (ir opA opB : Byte), decodeLatch ⟨ir, opA, opB⟩ = none ↔ ir ∉ opcodeTable) ∧
    ((List.range 256).filter (fun n => decide (BitVec.ofNat 8 n ∉ opcodeTable))).length = 242 ∧
    (∀ ir : Byte, operandCount ir = 3 → ir ∉ opcodeTable) ∧ (0x00 : Byte) ∉ opcodeTable

/-! ### The step -/

/-- R68, R70, R72: when the three bytes at pc decode to an instruction, the step is exec of it on the state that sampling
the timer input and the interrupt check leave. -/
def Obligations.StepRunsTheDecodedInstruction : Prop :=
  ∀ (s : State) (i : Instr) (rest : List Byte), s.status = .running → s.pc ≤ 253 →
    decode [s.mem.read s.pc, s.mem.read (s.pc + 1), s.mem.read (s.pc + 2)] = .ok (i, rest) →
    step s = exec i (s.sampleTick.interruptCheck s.tickInput)

/-- R69: the fetch reads pc, pc+1 and pc+2; the first address of 256 or more raises OutOfBounds before the interrupt check,
and nothing but the status changes. -/
def Obligations.FetchReadsThreeBytesOrRaises : Prop :=
  ∀ s : State,
    (s.pc ≤ 253 → s.fetch = .ok ⟨s.mem.read s.pc, s.mem.read (s.pc + 1), s.mem.read (s.pc + 2)⟩) ∧
      (s.status = .running → s.pc = 254 ∨ s.pc = 255 → step s = .next { s with status := .faulted (.outOfBounds 256) }) ∧
      (s.status = .running → 256 ≤ s.pc → step s = .next { s with status := .faulted (.outOfBounds s.pc) })

/-- R71: an opcode byte outside the table raises UnknownInstruction, runs no handler and leaves pc; the effects of the
interrupt check remain. -/
def Obligations.UnlistedOpcodeRaisesUnknownInstruction : Prop :=
  ∀ s : State, s.status = .running → s.pc ≤ 253 → s.mem.read s.pc ∉ opcodeTable →
    ∃ t, step s = .next t ∧
      t = { s.checked with status := .faulted (.unknownInstruction (s.mem.read s.pc) s.pc) } ∧ t.pc = s.pc

/-- R67, R77: no step exists from Halted or Faulted, which is the last clause. That such a core stops with a fault, and the
fault names `halted` and `faulted e` in the first two clauses, are the model's choice (log entry 6, DEDUCED). -/
def Obligations.NoStepAfterTheRunEnds : Prop :=
  ∀ s : State,
    (s.status = .halted → step s = .fault .halted) ∧ (∀ e, s.status = .faulted e → step s = .fault (.faulted e)) ∧
      (s.status ≠ .running → ∀ t, step s ≠ .next t)

/-- R67, R108: a running core always has a next state, a raised error among them. -/
def Obligations.RunningCoreAlwaysHasNextState : Prop :=
  ∀ s : State, s.status = .running → ∃ t, step s = .next t

/-- R116: an error raised by the fetch leaves the state the step started from, and any other error the state its interrupt
check left; in both pc is the step's pc. -/
def Obligations.FaultingStepKeepsEverythingButTheStatus : Prop :=
  ∀ (s t : State) (e : FatalError), s.status = .running → step s = .next t → t.status = .faulted e →
    t.pc = s.pc ∧
      ((254 ≤ s.pc ∧ t = { s with status := .faulted e }) ∨
        (s.pc ≤ 253 ∧ t = { s.checked with status := .faulted e }))

/-- R117: the errors of one step, in the order in which they are raised. -/
def Obligations.ErrorsOfAStepComeInOrder : Prop :=
  ∀ s : State, s.status = .running →
    (254 ≤ s.pc → step s = .next { s with status := .faulted (.outOfBounds (max 256 (s.pc : Int))) }) ∧
      (s.pc ≤ 253 → decodeLatch s.latch = none →
        step s = .next { s.checked with status := .faulted (.unknownInstruction (s.mem.read s.pc) s.pc) }) ∧
      (∀ i b, s.pc ≤ 253 → decodeLatch s.latch = some i → i.registerOperands.find? (fun c => !namesRegister c) = some b →
        step s = .next { s.checked with status := .faulted (.invalidRegister b s.pc) }) ∧
      (∀ i t e, s.pc ≤ 253 → decodeLatch s.latch = some i → i.wellFormed = true → step s = .next t →
        t.status = .faulted e →
        (e = .stackOverflow s.checked.sp s.pc ∧ ((∃ r, i = .push r) ∨ ∃ r, i = .call r)) ∨
          (e = .stackUnderflow s.checked.sp s.pc ∧ ((∃ r, i = .pop r) ∨ i = .ret)))

/-- R112, R38: an access outside 0..255 raises OutOfBounds and writes nothing, and no step from a pc of 253 or less raises
it. -/
def Obligations.OutOfBoundsComesOnlyFromTheFetch : Prop :=
  (∀ (s : State) (a : Int) (v : Byte), a < 0 ∨ 255 < a →
    s.memRead a = .error (.outOfBounds a) ∧ s.memWrite a v = .error (.outOfBounds a)) ∧
    ∀ (s t : State) (a : Int), s.status = .running → step s = .next t → t.status = .faulted (.outOfBounds a) → 254 ≤ s.pc

/-- R73, R74, R75: an instruction whose sets-PC bit is 0 either raises and leaves pc, or goes on by its operand count plus
one, not reduced modulo 256. -/
def Obligations.SequentialInstructionsAdvanceByTheirLength : Prop :=
  ∀ (i : Instr) (s t : State), setsPc i.opcode = false → exec i s = .next t →
    (∃ e, Raises i s e ∧ t.pc = s.pc) ∨ t.pc = s.pc + operandCount i.opcode + 1

/-! ### Construction and the load -/

/-- R131: the state after construction. R0..R6 and FL are the spec's decisions D5 and D4 (log entry 3); `eos` before the
load is not part of the statement (log entry 2). -/
def Obligations.ResetIsTheConstructionState : Prop :=
  (∀ a, State.reset.mem.read a = 0) ∧ (∀ r : RegIdx, r ≠ 7 → State.reset.reg r = 0) ∧ State.reset.reg 7 = 0xF4 ∧
    State.reset.pc = 0 ∧ State.reset.fl = 0 ∧ State.reset.status = .running ∧ State.reset.out = []

/-- R134: the load puts byte k at address k, sets `eos` to the length and leaves the rest of the construction state; a
program that is too long or holds a value above 255 is refused; and the empty program's first step is an unknown
instruction. -/
def Obligations.LoadPlacesTheProgramAtZero : Prop :=
  (∀ p : List Nat, p.length ≤ 256 → (∀ v ∈ p, v ≤ 255) →
    ∃ s, boot p = .next s ∧ (∀ k (h : k < p.length), (s.mem.read k).toNat = p[k]) ∧
      (∀ k, p.length ≤ k → s.mem.read k = 0) ∧ s = { State.reset with mem := s.mem, eos := p.length }) ∧
    (∀ p : List Nat, 256 < p.length ∨ (∃ v ∈ p, 255 < v) → ∃ r, boot p = .refused r) ∧
    ∃ s t, boot [] = .next s ∧ s.eos = 0 ∧ step s = .next t ∧ t.status = .faulted (.unknownInstruction 0x00 0)

/-! ### Memory -/

/-- R35 (the model's own form of memory, log entry 5): two memories in canonical form that read alike everywhere are equal
as data. -/
def Obligations.CanonicalMemoriesThatReadAlikeAreEqual : Prop :=
  ∀ m n : Memory, m.wf = true → n.wf = true → (∀ a, m.read a = n.read a) → m = n

/-- R50: a byte of memory that a step changes was changed by the interrupt save or by ST, PUSH or CALL. -/
def Obligations.MemoryChangesOnlyByStoresAndSaves : Prop :=
  ∀ (s t : State) (a : Nat), s.status = .running → step s = .next t → t.mem.read a ≠ s.mem.read a →
    s.TakesInterrupt s.tickInput ∨
      ∃ i, decodeLatch s.latch = some i ∧ ((∃ ra rb, i = .st ra rb) ∨ (∃ r, i = .push r) ∨ ∃ r, i = .call r)

/-- R47, R139: after a store the fetch at any pc reads the stored byte in its place, and every other byte as before. -/
def Obligations.StoreIsSeenByTheNextFetch : Prop :=
  ∀ (s : State) (ra rb : Byte) (ha : ra.toNat < 8) (hb : rb.toNat < 8),
    ∃ t, exec (.st ra rb) s = .next t ∧
      ∀ p ≤ 253,
        let byteAt := fun c => if c = (s.reg ⟨ra.toNat, ha⟩).toNat then s.reg ⟨rb.toNat, hb⟩ else s.mem.read c
        (t.setPc p).fetch = .ok ⟨byteAt p, byteAt (p + 1), byteAt (p + 2)⟩

/-! ### The ALU -/

/-- R82: ADD, whole. -/
def Obligations.AddWritesTheSumModulo256 : Prop :=
  ∀ (s : State) (ra rb : Byte),
    encode (.add ra rb) = [0xA0, ra, rb] ∧
      (∀ (ha : ra.toNat < 8) (hb : rb.toNat < 8),
        ∃ t, exec (.add ra rb) s = .next t ∧
          (t.reg ⟨ra.toNat, ha⟩).toNat = ((s.reg ⟨ra.toNat, ha⟩).toNat + (s.reg ⟨rb.toNat, hb⟩).toNat) % 256 ∧
          t.pc = s.pc + 3 ∧ t.fl = s.fl ∧ t.status = s.status ∧ t.out = s.out ∧ Frame s t [⟨ra.toNat, ha⟩] []) ∧
      ChecksPair (.add ra rb) s ra rb

/-- R83: MUL, whole. -/
def Obligations.MulWritesTheProductModulo256 : Prop :=
  ∀ (s : State) (ra rb : Byte),
    encode (.mul ra rb) = [0xA2, ra, rb] ∧
      (∀ (ha : ra.toNat < 8) (hb : rb.toNat < 8),
        ∃ t, exec (.mul ra rb) s = .next t ∧
          (t.reg ⟨ra.toNat, ha⟩).toNat = ((s.reg ⟨ra.toNat, ha⟩).toNat * (s.reg ⟨rb.toNat, hb⟩).toNat) % 256 ∧
          t.pc = s.pc + 3 ∧ t.fl = s.fl ∧ t.status = s.status ∧ t.out = s.out ∧ Frame s t [⟨ra.toNat, ha⟩] []) ∧
      ChecksPair (.mul ra rb) s ra rb

/-- R84: CMP, whole: FL is replaced by the outcome of the unsigned comparison and no register changes. -/
def Obligations.CmpWritesTheUnsignedOrder : Prop :=
  ∀ (s : State) (ra rb : Byte),
    encode (.cmp ra rb) = [0xA7, ra, rb] ∧
      (∀ (ha : ra.toNat < 8) (hb : rb.toNat < 8),
        ∃ t, exec (.cmp ra rb) s = .next t ∧
          (let x := (s.reg ⟨ra.toNat, ha⟩).toNat
           let y := (s.reg ⟨rb.toNat, hb⟩).toNat
           (x = y → t.fl = 0x01) ∧ (x < y → t.fl = 0x04) ∧ (y < x → t.fl = 0x02)) ∧
          t.pc = s.pc + 3 ∧ t.status = s.status ∧ t.out = s.out ∧ Frame s t [] []) ∧
      ChecksPair (.cmp ra rb) s ra rb

/-- R85: any other operation code fails in the ALU, and no step raises that error. -/
def Obligations.AluRejectsOtherOperations : Prop :=
  (∀ (s : State) (op : Byte) (a b : RegIdx), op ≠ 0xA0 → op ≠ 0xA2 → op ≠ 0xA7 →
    s.alu op a b = .error (.unsupportedALUOperation op)) ∧
    ∀ (s t : State) (op : Byte), step s = .next t → t.status ≠ .faulted (.unsupportedALUOperation op)

/-! ### The stack -/

/-- R90 with the check of R88: PUSH, whole. The stored byte is the register after the decrement, so for R7 the decremented
SP; the register check comes before the stack check. -/
def Obligations.PushStoresBelowTheStackPointer : Prop :=
  ∀ (s : State) (r : Byte),
    encode (.push r) = [0x45, r] ∧
      (∀ h : r.toNat < 8, (s.eos : Int) ≤ (s.sp.toNat : Int) - 1 →
        ∃ t, exec (.push r) s = .next t ∧
          t.sp.toNat = s.sp.toNat - 1 ∧ s.decSp.sp.toNat = s.sp.toNat - 1 ∧
          t.mem.read s.decSp.sp.toNat = (if r = 7 then s.sp - 1 else s.reg ⟨r.toNat, h⟩) ∧
          t.pc = s.pc + 2 ∧ t.fl = s.fl ∧ t.status = s.status ∧ t.out = s.out ∧ Frame s t [7] [s.decSp.sp.toNat]) ∧
      (r.toNat < 8 → (s.sp.toNat : Int) - 1 < s.eos → Raises (.push r) s (.stackOverflow s.sp s.pc)) ∧
      ChecksOne (.push r) s r

/-- R91 with the check of R89: POP, whole. SP is read after the register write, so for R7 it ends at the popped byte plus
one, modulo 256; the popped byte stays in memory. -/
def Obligations.PopLoadsFromTheStackPointer : Prop :=
  ∀ (s : State) (r : Byte),
    encode (.pop r) = [0x46, r] ∧
      (∀ h : r.toNat < 8, s.sp.toNat < 0xF4 →
        ∃ t, exec (.pop r) s = .next t ∧
          (r ≠ 7 → t.reg ⟨r.toNat, h⟩ = s.mem.read s.sp.toNat ∧ t.sp.toNat = s.sp.toNat + 1) ∧
          (r = 7 → t.sp.toNat = ((s.mem.read s.sp.toNat).toNat + 1) % 256) ∧
          t.pc = s.pc + 2 ∧ t.fl = s.fl ∧ t.status = s.status ∧ t.out = s.out ∧ Frame s t [⟨r.toNat, h⟩, 7] []) ∧
      (r.toNat < 8 → 0xF4 ≤ s.sp.toNat → Raises (.pop r) s (.stackUnderflow s.sp s.pc)) ∧
      ChecksOne (.pop r) s r

/-- R92 with the check of R88: CALL, whole. The target is read after the push, so CALL R7 jumps to the decremented SP. -/
def Obligations.CallPushesTheReturnAddressAndJumps : Prop :=
  ∀ (s : State) (r : Byte),
    encode (.call r) = [0x50, r] ∧
      (∀ h : r.toNat < 8, (s.eos : Int) ≤ (s.sp.toNat : Int) - 1 →
        ∃ t, exec (.call r) s = .next t ∧
          t.sp.toNat = s.sp.toNat - 1 ∧ s.decSp.sp.toNat = s.sp.toNat - 1 ∧
          (s.pc ≤ 253 → (t.mem.read s.decSp.sp.toNat).toNat = s.pc + 2) ∧
          t.pc = (if r = 7 then s.sp - 1 else s.reg ⟨r.toNat, h⟩).toNat ∧
          t.fl = s.fl ∧ t.status = s.status ∧ t.out = s.out ∧ Frame s t [7] [s.decSp.sp.toNat]) ∧
      (r.toNat < 8 → (s.sp.toNat : Int) - 1 < s.eos → Raises (.call r) s (.stackOverflow s.sp s.pc)) ∧
      ChecksOne (.call r) s r

/-- R93 with the check of R89: RET, whole. -/
def Obligations.RetPopsThePc : Prop :=
  ∀ s : State,
    encode .ret = [0x11] ∧
      (s.sp.toNat < 0xF4 →
        ∃ t, exec .ret s = .next t ∧
          t.pc = (s.mem.read s.sp.toNat).toNat ∧ t.sp.toNat = s.sp.toNat + 1 ∧
          t.fl = s.fl ∧ t.status = s.status ∧ t.out = s.out ∧ Frame s t [7] []) ∧
      (0xF4 ≤ s.sp.toNat → Raises .ret s (.stackUnderflow s.sp s.pc))

/-- R94: the four laws of the stack. PUSH then POP restores the register and SP; CALL then RET, when the callee leaves SP
and the return address as it found them, goes on at pc + 2; a push over the boundary and a pop at the stack top change
nothing. -/
def Obligations.StackRoundTripLaws : Prop :=
  (∀ (s : State) (r : Byte) (h : r.toNat < 8), (s.eos : Int) ≤ (s.sp.toNat : Int) - 1 → s.sp.toNat ≤ 0xF4 →
    ∃ t u, exec (.push r) s = .next t ∧ exec (.pop r) t = .next u ∧
      u.reg ⟨r.toNat, h⟩ = s.reg ⟨r.toNat, h⟩ ∧ u.sp = s.sp) ∧
    (∀ (s : State) (r : Byte), r.toNat < 8 → s.pc ≤ 253 → (s.eos : Int) ≤ (s.sp.toNat : Int) - 1 → s.sp.toNat ≤ 0xF4 →
      ∃ t, exec (.call r) s = .next t ∧
        ∀ u : State, u.sp = t.sp → u.mem.read t.sp.toNat = t.mem.read t.sp.toNat →
          ∃ v, exec .ret u = .next v ∧ v.pc = s.pc + 2 ∧ v.sp = s.sp) ∧
    (∀ (s t : State) (r : Byte), r.toNat < 8 → (s.sp.toNat : Int) - 1 < s.eos → exec (.push r) s = .next t →
      t.status = .faulted (.stackOverflow s.sp s.pc) ∧ t.mem = s.mem ∧ t.sp = s.sp) ∧
    ∀ (s t : State) (r : Byte) (h : r.toNat < 8), s.sp = 0xF4 → exec (.pop r) s = .next t →
      t.status = .faulted (.stackUnderflow s.sp s.pc) ∧ t.reg ⟨r.toNat, h⟩ = s.reg ⟨r.toNat, h⟩ ∧ t.sp = s.sp

/-! ### Flow control -/

/-- R96: JMP, whole. -/
def Obligations.JmpSetsThePcToTheRegister : Prop :=
  ∀ (s : State) (r : Byte),
    encode (.jmp r) = [0x54, r] ∧
      (∀ h : r.toNat < 8,
        ∃ t, exec (.jmp r) s = .next t ∧ t.pc = (s.reg ⟨r.toNat, h⟩).toNat ∧
          t.fl = s.fl ∧ t.status = s.status ∧ t.out = s.out ∧ Frame s t [] []) ∧
      ChecksOne (.jmp r) s r

/-- R97: JEQ, whole. -/
def Obligations.JeqBranchesOnEqual : Prop :=
  ∀ (s : State) (r : Byte),
    encode (.jeq r) = [0x55, r] ∧
      (∀ h : r.toNat < 8,
        ∃ t, exec (.jeq r) s = .next t ∧
          (s.fl = 0x01 → t.pc = (s.reg ⟨r.toNat, h⟩).toNat) ∧ (s.fl ≠ 0x01 → t.pc = s.pc + 2) ∧
          t.fl = s.fl ∧ t.status = s.status ∧ t.out = s.out ∧ Frame s t [] []) ∧
      ChecksOne (.jeq r) s r

/-- R98: JNE, whole; and after a CMP a JEQ branches exactly when the CMP set Equal, a JNE exactly when it did not. -/
def Obligations.JneBranchesOnNotEqual : Prop :=
  (∀ (s : State) (r : Byte),
    encode (.jne r) = [0x56, r] ∧
      (∀ h : r.toNat < 8,
        ∃ t, exec (.jne r) s = .next t ∧
          (s.fl ≠ 0x01 → t.pc = (s.reg ⟨r.toNat, h⟩).toNat) ∧ (s.fl = 0x01 → t.pc = s.pc + 2) ∧
          t.fl = s.fl ∧ t.status = s.status ∧ t.out = s.out ∧ Frame s t [] []) ∧
      ChecksOne (.jne r) s r) ∧
    ∀ (s : State) (ra rb r : Byte) (ha : ra.toNat < 8) (hb : rb.toNat < 8) (hr : r.toNat < 8),
      ∃ t u v, exec (.cmp ra rb) s = .next t ∧ exec (.jeq r) t = .next u ∧ exec (.jne r) t = .next v ∧
        u.pc = (if s.reg ⟨ra.toNat, ha⟩ = s.reg ⟨rb.toNat, hb⟩ then (s.reg ⟨r.toNat, hr⟩).toNat else s.pc + 5) ∧
        v.pc = (if s.reg ⟨ra.toNat, ha⟩ = s.reg ⟨rb.toNat, hb⟩ then s.pc + 5 else (s.reg ⟨r.toNat, hr⟩).toNat)

/-! ### Data movement and halt -/

/-- R100: LDI, whole. -/
def Obligations.LdiWritesTheImmediate : Prop :=
  ∀ (s : State) (r v : Byte),
    encode (.ldi r v) = [0x82, r, v] ∧
      (∀ h : r.toNat < 8,
        ∃ t, exec (.ldi r v) s = .next t ∧ t.reg ⟨r.toNat, h⟩ = v ∧ t.pc = s.pc + 3 ∧
          t.fl = s.fl ∧ t.status = s.status ∧ t.out = s.out ∧ Frame s t [⟨r.toNat, h⟩] []) ∧
      ChecksOne (.ldi r v) s r

/-- R101: ST, whole. -/
def Obligations.StStoresAtTheRegisterAddress : Prop :=
  ∀ (s : State) (ra rb : Byte),
    encode (.st ra rb) = [0x84, ra, rb] ∧
      (∀ (ha : ra.toNat < 8) (hb : rb.toNat < 8),
        ∃ t, exec (.st ra rb) s = .next t ∧ t.mem.read (s.indirect ⟨ra.toNat, ha⟩) = s.reg ⟨rb.toNat, hb⟩ ∧
          s.indirect ⟨ra.toNat, ha⟩ = (s.reg ⟨ra.toNat, ha⟩).toNat ∧ t.pc = s.pc + 3 ∧
          t.fl = s.fl ∧ t.status = s.status ∧ t.out = s.out ∧ Frame s t [] [s.indirect ⟨ra.toNat, ha⟩]) ∧
      ChecksPair (.st ra rb) s ra rb

/-- R102: PRN, whole. -/
def Obligations.PrnEmitsTheRegister : Prop :=
  ∀ (s : State) (r : Byte),
    encode (.prn r) = [0x47, r] ∧
      (∀ h : r.toNat < 8,
        ∃ t, exec (.prn r) s = .next t ∧ t.out = s.out ++ [s.reg ⟨r.toNat, h⟩] ∧ t.pc = s.pc + 2 ∧
          t.fl = s.fl ∧ t.status = s.status ∧ Frame s t [] []) ∧
      ChecksOne (.prn r) s r

/-- R103, R74: HLT, whole. In a step the interrupt check runs first, so a save may be made before the core halts; the
advance follows; and no step exists after it. -/
def Obligations.HltHaltsAndAdvances : Prop :=
  ∀ s : State,
    encode .hlt = [0x01] ∧
      (∃ t, exec .hlt s = .next t ∧ t.status = .halted ∧ t.pc = s.pc + 1 ∧ t.fl = s.fl ∧ t.out = s.out ∧ Frame s t [] []) ∧
      (s.status = .running → s.pc ≤ 253 → decodeLatch s.latch = some .hlt →
        ∃ t, step s = .next t ∧ t = { s.checked with status := .halted, pc := s.pc + 1 } ∧ ∀ u, step t ≠ .next u)

/-! ### The interrupt check -/

/-- R118: the timer stage sets bit 0 of R6 when the timer fires, whatever IM is, and leaves bits 1..7; and a check that
takes no interrupt is that stage alone, which changes nothing but R6 (R119, R120). -/
def Obligations.TimerSetsBitZeroOfTheStatus : Prop :=
  ∀ (s : State) (tick : Bool),
    ((s.timerStage tick).reg 6).getLsbD 0 = (tick || (s.reg 6).getLsbD 0) ∧
      (∀ i, i ≠ 0 → ((s.timerStage tick).reg 6).getLsbD i = (s.reg 6).getLsbD i) ∧
      (∀ r : RegIdx, r ≠ 6 → (s.timerStage tick).reg r = s.reg r) ∧
      s.timerStage tick = { s with regs := (s.timerStage tick).regs } ∧
      (¬ s.TakesInterrupt tick → s.interruptCheck tick = s.timerStage tick)

/-- R120, R121, R122: a taken interrupt clears R5 and R6, saves nine bytes below SP modulo 256 in the stated layout, lowers
SP by nine and changes nothing else. It raises nothing, whatever SP and `eos` are. -/
def Obligations.TakenInterruptSavesNineBytes : Prop :=
  ∀ (s : State) (tick : Bool), s.TakesInterrupt tick →
    let t := s.interruptCheck tick
    t.reg 5 = 0 ∧ t.reg 6 = 0 ∧ t.sp = s.sp - 9 ∧ (∀ r : RegIdx, r ≠ 5 → r ≠ 6 → r ≠ 7 → t.reg r = s.reg r) ∧
      (s.pc ≤ 255 → (t.mem.read (s.sp - 1).toNat).toNat = s.pc) ∧ t.mem.read (s.sp - 2).toNat = s.fl ∧
      t.mem.read (s.sp - 3).toNat = s.reg 0 ∧ t.mem.read (s.sp - 4).toNat = s.reg 1 ∧
      t.mem.read (s.sp - 5).toNat = s.reg 2 ∧ t.mem.read (s.sp - 6).toNat = s.reg 3 ∧
      t.mem.read (s.sp - 7).toNat = s.reg 4 ∧ t.mem.read (s.sp - 8).toNat = 0 ∧ t.mem.read (s.sp - 9).toNat = 0 ∧
      (∀ a, (∀ k : Nat, 1 ≤ k → k ≤ 9 → a ≠ (s.sp - BitVec.ofNat 8 k).toNat) → t.mem.read a = s.mem.read a) ∧
      t = { s with regs := t.regs, mem := t.mem }

/-- R123: no control transfer. The check leaves pc, and the step goes on with the instruction latched before it, on the
state the save left, even where the save overwrote the instruction's bytes. -/
def Obligations.InterruptTransfersNoControl : Prop :=
  ∀ s : State, s.status = .running → s.pc ≤ 253 → s.TakesInterrupt s.tickInput →
    s.checked.pc = s.pc ∧ s.checked.sp = s.sp - 9 ∧ s.checked.reg 5 = 0 ∧ s.checked.reg 6 = 0 ∧
      step s =
        match decodeLatch ⟨s.mem.read s.pc, s.mem.read (s.pc + 1), s.mem.read (s.pc + 2)⟩ with
        | some i => exec i s.checked
        | none => .next { s.checked with status := .faulted (.unknownInstruction (s.mem.read s.pc) s.pc) }

/-- R140, R127: in the step that takes an interrupt, where SP after the save is below the stack top, a POP pops the saved
R6, which is 0 (so POP R7 leaves SP at 1), and a RET jumps to address 0. -/
def Obligations.PopAndRetAfterTheSavePopZero : Prop :=
  ∀ s : State, s.status = .running → s.pc ≤ 253 → s.TakesInterrupt s.tickInput → (s.sp - 9).toNat < 0xF4 →
    (∀ (r : Byte) (h : r.toNat < 8), decodeLatch s.latch = some (.pop r) →
      ∃ t, step s = .next t ∧ t.status = .running ∧ (r ≠ 7 → t.reg ⟨r.toNat, h⟩ = 0 ∧ t.sp = s.sp - 8) ∧
        (r = 7 → t.sp = 1)) ∧
      (decodeLatch s.latch = some .ret → ∃ t, step s = .next t ∧ t.pc = 0 ∧ t.sp = s.sp - 8 ∧ t.status = .running)

/-- R127, R132: while the mask R5 is 0, as it is after construction and after a save, no check saves anything: only bit 0
of R6 can change. -/
def Obligations.ZeroMaskTakesNoInterrupt : Prop :=
  State.reset.reg 5 = 0 ∧ (∀ (s : State) (tick : Bool), s.TakesInterrupt tick → (s.interruptCheck tick).reg 5 = 0) ∧
    ∀ (s : State) (tick : Bool), s.reg 5 = 0 →
      ¬ s.TakesInterrupt tick ∧ (s.interruptCheck tick).mem = s.mem ∧
        ∀ r : RegIdx, r ≠ 6 → (s.interruptCheck tick).reg r = s.reg r

/-- R31, R70 (the timer input's place in State is the model's own, log entry 1): any announced input, of either value, is
the one the check takes; a step whose fetch succeeds samples one input and a step whose fetch raises samples none. -/
def Obligations.StepSamplesOneTimerInput : Prop :=
  (∀ (s : State) (tick : Bool) (rest : List Bool), s.status = .running → s.pc ≤ 253 → s.ticks = tick :: rest →
    step s = (s.sampleTick.interruptCheck tick).dispatch s.latch ∧ s.sampleTick.ticks = rest) ∧
    ∀ s t : State, s.status = .running → step s = .next t →
      (s.pc ≤ 253 → t.tickIndex = s.tickIndex + 1 ∧ t.ticks = s.ticks.tail) ∧
        (254 ≤ s.pc → t.tickIndex = s.tickIndex ∧ t.ticks = s.ticks)

/-! ### The whole machine -/

/-- R17, R25, R21: every step keeps the ranges of the invariant, pc and `eos` in 0..256 (pc up to 256 by the spec's
decisions D8 and D9, log entry 10) and FL one of its four values (their bits by the spec's decision D3, log entry 8). The
clause `mem_wf`, the memory list in canonical form, is the model's own (log entry 5, DESIGN CHOICE) and no rule of the
spec. -/
def Obligations.StepKeepsTheInvariant : Prop :=
  ∀ s t : State, s.Inv → step s = .next t → t.Inv

/-- R131: pc and FL of the construction state meet the invariant (FL 0 is the spec's decision D4, log entry 3). `eos` before
the load is the model's choice (log entry 2, DESIGN CHOICE), and so is the canonical form of the memory list (log entry 5,
DESIGN CHOICE); R131 says neither. -/
def Obligations.ResetMeetsTheInvariant : Prop := State.reset.Inv

/-- R134, R131: pc, FL and `eos` of every loaded core meet the invariant. The canonical form of the memory list is the
model's own (log entry 5, DESIGN CHOICE) and no rule of the spec. -/
def Obligations.LoadedCoreMeetsTheInvariant : Prop :=
  ∀ (p : List Nat) (s : State), boot p = .next s → s.Inv

/-- R20: a step that changes FL runs a CMP. -/
def Obligations.OnlyCmpWritesTheFlags : Prop :=
  ∀ s t : State, s.status = .running → step s = .next t → t.fl ≠ s.fl → ∃ ra rb, decodeLatch s.latch = some (.cmp ra rb)

/-- R25: no step moves the end-of-stack boundary. -/
def Obligations.NoStepMovesTheEndOfStack : Prop :=
  ∀ s t : State, step s = .next t → t.eos = s.eos

/-- R30: a step that runs a PRN whose operand names a register appends that register's value to the output, and a step
that changes the output runs such a PRN. -/
def Obligations.OutputGrowsExactlyByPrn : Prop :=
  ∀ s t : State, s.status = .running → step s = .next t →
    (∀ (r : Byte) (h : r.toNat < 8), s.pc ≤ 253 → decodeLatch s.latch = some (.prn r) →
      t.out = s.out ++ [s.checked.reg ⟨r.toNat, h⟩]) ∧
      (t.out ≠ s.out → ∃ r : Byte, r.toNat < 8 ∧ s.pc ≤ 253 ∧ decodeLatch s.latch = some (.prn r))

/-- R26, R67: a step reaches Halted exactly when it runs HLT. -/
def Obligations.HaltedOnlyByHlt : Prop :=
  ∀ s t : State, s.status = .running → step s = .next t →
    (t.status = .halted ↔ s.pc ≤ 253 ∧ decodeLatch s.latch = some .hlt)
end

