-- ==== Sys2Proof/Laws/State.lean ====
section
/-!
SUPPORT. One lemma per field of State per update, and what reading a register after writing one gives.
-/

namespace Sys2Proof.Machine

/-! ### Registers -/

theorem State.reg_eq (s : State) (i : RegIdx) : s.reg i = s.regs[i.val] := rfl

@[simp] theorem State.reg_setReg_same (s : State) (i : RegIdx) (v : Byte) : (s.setReg i v).reg i = v := by
  simp [State.reg_eq, State.setReg]

theorem State.reg_setReg_ne (s : State) {i j : RegIdx} (v : Byte) (h : j ≠ i) : (s.setReg i v).reg j = s.reg j := by
  have : i.val ≠ j.val := fun e => h (Fin.ext e.symm)
  simp [State.reg_eq, State.setReg, Vector.getElem_set_ne, this]

theorem State.reg_setReg (s : State) (i j : RegIdx) (v : Byte) :
    (s.setReg i v).reg j = if j = i then v else s.reg j := by
  split
  · subst_vars; simp
  · exact s.reg_setReg_ne v ‹_›

@[simp] theorem State.setReg_reg (s : State) (i : RegIdx) : s.setReg i (s.reg i) = s := by
  simp [State.reg_eq, State.setReg]

theorem State.sp_eq (s : State) : s.sp = s.reg Config.spIndex := rfl

theorem State.im_eq (s : State) : s.im = s.reg Config.imIndex := rfl

theorem State.is_eq (s : State) : s.is = s.reg Config.isIndex := rfl

/-- Two register files that read alike are equal. -/
theorem State.regs_ext {s t : State} (h : ∀ i, s.reg i = t.reg i) : s.regs = t.regs :=
  Vector.ext fun i hi => h ⟨i, hi⟩

/-! ### setReg -/

@[simp] theorem State.setReg_regs (s : State) (i : RegIdx) (v : Byte) : (s.setReg i v).regs = s.regs.set i v := rfl

@[simp] theorem State.setReg_pc (s : State) (i : RegIdx) (v : Byte) : (s.setReg i v).pc = s.pc := rfl

@[simp] theorem State.setReg_fl (s : State) (i : RegIdx) (v : Byte) : (s.setReg i v).fl = s.fl := rfl

@[simp] theorem State.setReg_mem (s : State) (i : RegIdx) (v : Byte) : (s.setReg i v).mem = s.mem := rfl

@[simp] theorem State.setReg_eos (s : State) (i : RegIdx) (v : Byte) : (s.setReg i v).eos = s.eos := rfl

@[simp] theorem State.setReg_status (s : State) (i : RegIdx) (v : Byte) : (s.setReg i v).status = s.status := rfl

@[simp] theorem State.setReg_out (s : State) (i : RegIdx) (v : Byte) : (s.setReg i v).out = s.out := rfl

@[simp] theorem State.setReg_ticks (s : State) (i : RegIdx) (v : Byte) : (s.setReg i v).ticks = s.ticks := rfl

@[simp] theorem State.setReg_tickIndex (s : State) (i : RegIdx) (v : Byte) : (s.setReg i v).tickIndex = s.tickIndex := rfl

/-! ### setPc -/

@[simp] theorem State.setPc_regs (s : State) (t : Nat) : (s.setPc t).regs = s.regs := rfl

@[simp] theorem State.setPc_pc (s : State) (t : Nat) : (s.setPc t).pc = t := rfl

@[simp] theorem State.setPc_fl (s : State) (t : Nat) : (s.setPc t).fl = s.fl := rfl

@[simp] theorem State.setPc_mem (s : State) (t : Nat) : (s.setPc t).mem = s.mem := rfl

@[simp] theorem State.setPc_eos (s : State) (t : Nat) : (s.setPc t).eos = s.eos := rfl

@[simp] theorem State.setPc_status (s : State) (t : Nat) : (s.setPc t).status = s.status := rfl

@[simp] theorem State.setPc_out (s : State) (t : Nat) : (s.setPc t).out = s.out := rfl

@[simp] theorem State.setPc_ticks (s : State) (t : Nat) : (s.setPc t).ticks = s.ticks := rfl

@[simp] theorem State.setPc_tickIndex (s : State) (t : Nat) : (s.setPc t).tickIndex = s.tickIndex := rfl

@[simp] theorem State.setPc_reg (s : State) (t : Nat) (j : RegIdx) : (s.setPc t).reg j = s.reg j := rfl

@[simp] theorem State.setPc_sp (s : State) (t : Nat) : (s.setPc t).sp = s.sp := rfl

/-! ### setFl -/

@[simp] theorem State.setFl_regs (s : State) (v : Byte) : (s.setFl v).regs = s.regs := rfl

@[simp] theorem State.setFl_pc (s : State) (v : Byte) : (s.setFl v).pc = s.pc := rfl

@[simp] theorem State.setFl_fl (s : State) (v : Byte) : (s.setFl v).fl = v := rfl

@[simp] theorem State.setFl_mem (s : State) (v : Byte) : (s.setFl v).mem = s.mem := rfl

@[simp] theorem State.setFl_eos (s : State) (v : Byte) : (s.setFl v).eos = s.eos := rfl

@[simp] theorem State.setFl_status (s : State) (v : Byte) : (s.setFl v).status = s.status := rfl

@[simp] theorem State.setFl_out (s : State) (v : Byte) : (s.setFl v).out = s.out := rfl

@[simp] theorem State.setFl_ticks (s : State) (v : Byte) : (s.setFl v).ticks = s.ticks := rfl

@[simp] theorem State.setFl_tickIndex (s : State) (v : Byte) : (s.setFl v).tickIndex = s.tickIndex := rfl

@[simp] theorem State.setFl_reg (s : State) (v : Byte) (j : RegIdx) : (s.setFl v).reg j = s.reg j := rfl

@[simp] theorem State.setFl_sp (s : State) (v : Byte) : (s.setFl v).sp = s.sp := rfl

/-! ### setStatus -/

@[simp] theorem State.setStatus_regs (s : State) (r : RunStatus) : (s.setStatus r).regs = s.regs := rfl

@[simp] theorem State.setStatus_pc (s : State) (r : RunStatus) : (s.setStatus r).pc = s.pc := rfl

@[simp] theorem State.setStatus_fl (s : State) (r : RunStatus) : (s.setStatus r).fl = s.fl := rfl

@[simp] theorem State.setStatus_mem (s : State) (r : RunStatus) : (s.setStatus r).mem = s.mem := rfl

@[simp] theorem State.setStatus_eos (s : State) (r : RunStatus) : (s.setStatus r).eos = s.eos := rfl

@[simp] theorem State.setStatus_status (s : State) (r : RunStatus) : (s.setStatus r).status = r := rfl

@[simp] theorem State.setStatus_out (s : State) (r : RunStatus) : (s.setStatus r).out = s.out := rfl

@[simp] theorem State.setStatus_ticks (s : State) (r : RunStatus) : (s.setStatus r).ticks = s.ticks := rfl

@[simp] theorem State.setStatus_tickIndex (s : State) (r : RunStatus) : (s.setStatus r).tickIndex = s.tickIndex := rfl

@[simp] theorem State.setStatus_reg (s : State) (r : RunStatus) (j : RegIdx) : (s.setStatus r).reg j = s.reg j := rfl

@[simp] theorem State.setStatus_sp (s : State) (r : RunStatus) : (s.setStatus r).sp = s.sp := rfl

/-! ### emit -/

@[simp] theorem State.emit_regs (s : State) (v : Byte) : (s.emit v).regs = s.regs := rfl

@[simp] theorem State.emit_pc (s : State) (v : Byte) : (s.emit v).pc = s.pc := rfl

@[simp] theorem State.emit_fl (s : State) (v : Byte) : (s.emit v).fl = s.fl := rfl

@[simp] theorem State.emit_mem (s : State) (v : Byte) : (s.emit v).mem = s.mem := rfl

@[simp] theorem State.emit_eos (s : State) (v : Byte) : (s.emit v).eos = s.eos := rfl

@[simp] theorem State.emit_status (s : State) (v : Byte) : (s.emit v).status = s.status := rfl

@[simp] theorem State.emit_out (s : State) (v : Byte) : (s.emit v).out = s.out ++ [v] := rfl

@[simp] theorem State.emit_ticks (s : State) (v : Byte) : (s.emit v).ticks = s.ticks := rfl

@[simp] theorem State.emit_tickIndex (s : State) (v : Byte) : (s.emit v).tickIndex = s.tickIndex := rfl

@[simp] theorem State.emit_reg (s : State) (v : Byte) (j : RegIdx) : (s.emit v).reg j = s.reg j := rfl

@[simp] theorem State.emit_sp (s : State) (v : Byte) : (s.emit v).sp = s.sp := rfl

/-! ### store -/

@[simp] theorem State.store_regs (s : State) (a v : Byte) : (s.store a v).regs = s.regs := rfl

@[simp] theorem State.store_pc (s : State) (a v : Byte) : (s.store a v).pc = s.pc := rfl

@[simp] theorem State.store_fl (s : State) (a v : Byte) : (s.store a v).fl = s.fl := rfl

@[simp] theorem State.store_mem (s : State) (a v : Byte) : (s.store a v).mem = s.mem.write a.toNat v := rfl

@[simp] theorem State.store_eos (s : State) (a v : Byte) : (s.store a v).eos = s.eos := rfl

@[simp] theorem State.store_status (s : State) (a v : Byte) : (s.store a v).status = s.status := rfl

@[simp] theorem State.store_out (s : State) (a v : Byte) : (s.store a v).out = s.out := rfl

@[simp] theorem State.store_ticks (s : State) (a v : Byte) : (s.store a v).ticks = s.ticks := rfl

@[simp] theorem State.store_tickIndex (s : State) (a v : Byte) : (s.store a v).tickIndex = s.tickIndex := rfl

@[simp] theorem State.store_reg (s : State) (a v : Byte) (j : RegIdx) : (s.store a v).reg j = s.reg j := rfl

@[simp] theorem State.store_sp (s : State) (a v : Byte) : (s.store a v).sp = s.sp := rfl

/-! ### raise -/

@[simp] theorem State.raise_regs (s : State) (e : FatalError) : (s.raise e).regs = s.regs := rfl

@[simp] theorem State.raise_pc (s : State) (e : FatalError) : (s.raise e).pc = s.pc := rfl

@[simp] theorem State.raise_fl (s : State) (e : FatalError) : (s.raise e).fl = s.fl := rfl

@[simp] theorem State.raise_mem (s : State) (e : FatalError) : (s.raise e).mem = s.mem := rfl

@[simp] theorem State.raise_eos (s : State) (e : FatalError) : (s.raise e).eos = s.eos := rfl

@[simp] theorem State.raise_status (s : State) (e : FatalError) : (s.raise e).status = .faulted e := rfl

@[simp] theorem State.raise_out (s : State) (e : FatalError) : (s.raise e).out = s.out := rfl

@[simp] theorem State.raise_ticks (s : State) (e : FatalError) : (s.raise e).ticks = s.ticks := rfl

@[simp] theorem State.raise_tickIndex (s : State) (e : FatalError) : (s.raise e).tickIndex = s.tickIndex := rfl

@[simp] theorem State.raise_reg (s : State) (e : FatalError) (j : RegIdx) : (s.raise e).reg j = s.reg j := rfl

@[simp] theorem State.raise_sp (s : State) (e : FatalError) : (s.raise e).sp = s.sp := rfl

/-! ### decSp -/

@[simp] theorem State.decSp_regs (s : State) : (s.decSp).regs = s.regs.set Config.spIndex (s.sp - 1) := rfl

@[simp] theorem State.decSp_pc (s : State) : (s.decSp).pc = s.pc := rfl

@[simp] theorem State.decSp_fl (s : State) : (s.decSp).fl = s.fl := rfl

@[simp] theorem State.decSp_mem (s : State) : (s.decSp).mem = s.mem := rfl

@[simp] theorem State.decSp_eos (s : State) : (s.decSp).eos = s.eos := rfl

@[simp] theorem State.decSp_status (s : State) : (s.decSp).status = s.status := rfl

@[simp] theorem State.decSp_out (s : State) : (s.decSp).out = s.out := rfl

@[simp] theorem State.decSp_ticks (s : State) : (s.decSp).ticks = s.ticks := rfl

@[simp] theorem State.decSp_tickIndex (s : State) : (s.decSp).tickIndex = s.tickIndex := rfl

/-! ### incSp -/

@[simp] theorem State.incSp_regs (s : State) : (s.incSp).regs = s.regs.set Config.spIndex (s.sp + 1) := rfl

@[simp] theorem State.incSp_pc (s : State) : (s.incSp).pc = s.pc := rfl

@[simp] theorem State.incSp_fl (s : State) : (s.incSp).fl = s.fl := rfl

@[simp] theorem State.incSp_mem (s : State) : (s.incSp).mem = s.mem := rfl

@[simp] theorem State.incSp_eos (s : State) : (s.incSp).eos = s.eos := rfl

@[simp] theorem State.incSp_status (s : State) : (s.incSp).status = s.status := rfl

@[simp] theorem State.incSp_out (s : State) : (s.incSp).out = s.out := rfl

@[simp] theorem State.incSp_ticks (s : State) : (s.incSp).ticks = s.ticks := rfl

@[simp] theorem State.incSp_tickIndex (s : State) : (s.incSp).tickIndex = s.tickIndex := rfl

/-! ### timerStage -/

@[simp] theorem State.timerStage_regs (s : State) (tick : Bool) : (s.timerStage tick).regs = s.regs.set Config.isIndex (if tick then s.is ||| Config.timerBit else s.is) := rfl

@[simp] theorem State.timerStage_pc (s : State) (tick : Bool) : (s.timerStage tick).pc = s.pc := rfl

@[simp] theorem State.timerStage_fl (s : State) (tick : Bool) : (s.timerStage tick).fl = s.fl := rfl

@[simp] theorem State.timerStage_mem (s : State) (tick : Bool) : (s.timerStage tick).mem = s.mem := rfl

@[simp] theorem State.timerStage_eos (s : State) (tick : Bool) : (s.timerStage tick).eos = s.eos := rfl

@[simp] theorem State.timerStage_status (s : State) (tick : Bool) : (s.timerStage tick).status = s.status := rfl

@[simp] theorem State.timerStage_out (s : State) (tick : Bool) : (s.timerStage tick).out = s.out := rfl

@[simp] theorem State.timerStage_ticks (s : State) (tick : Bool) : (s.timerStage tick).ticks = s.ticks := rfl

@[simp] theorem State.timerStage_tickIndex (s : State) (tick : Bool) : (s.timerStage tick).tickIndex = s.tickIndex := rfl

/-! ### sampleTick -/

@[simp] theorem State.sampleTick_regs (s : State) : (s.sampleTick).regs = s.regs := rfl

@[simp] theorem State.sampleTick_pc (s : State) : (s.sampleTick).pc = s.pc := rfl

@[simp] theorem State.sampleTick_fl (s : State) : (s.sampleTick).fl = s.fl := rfl

@[simp] theorem State.sampleTick_mem (s : State) : (s.sampleTick).mem = s.mem := rfl

@[simp] theorem State.sampleTick_eos (s : State) : (s.sampleTick).eos = s.eos := rfl

@[simp] theorem State.sampleTick_status (s : State) : (s.sampleTick).status = s.status := rfl

@[simp] theorem State.sampleTick_out (s : State) : (s.sampleTick).out = s.out := rfl

@[simp] theorem State.sampleTick_ticks (s : State) : (s.sampleTick).ticks = s.ticks.tail := rfl

@[simp] theorem State.sampleTick_tickIndex (s : State) : (s.sampleTick).tickIndex = s.tickIndex + 1 := rfl

@[simp] theorem State.sampleTick_reg (s : State) (j : RegIdx) : (s.sampleTick).reg j = s.reg j := rfl

@[simp] theorem State.sampleTick_sp (s : State) : (s.sampleTick).sp = s.sp := rfl

/-! ### loadProgram -/

@[simp] theorem State.loadProgram_regs (s : State) (p : List Byte) : (s.loadProgram p).regs = s.regs := rfl

@[simp] theorem State.loadProgram_pc (s : State) (p : List Byte) : (s.loadProgram p).pc = s.pc := rfl

@[simp] theorem State.loadProgram_fl (s : State) (p : List Byte) : (s.loadProgram p).fl = s.fl := rfl

@[simp] theorem State.loadProgram_mem (s : State) (p : List Byte) : (s.loadProgram p).mem = s.mem.writeBytes 0 p := rfl

@[simp] theorem State.loadProgram_eos (s : State) (p : List Byte) : (s.loadProgram p).eos = p.length := rfl

@[simp] theorem State.loadProgram_status (s : State) (p : List Byte) : (s.loadProgram p).status = s.status := rfl

@[simp] theorem State.loadProgram_out (s : State) (p : List Byte) : (s.loadProgram p).out = s.out := rfl

@[simp] theorem State.loadProgram_ticks (s : State) (p : List Byte) : (s.loadProgram p).ticks = s.ticks := rfl

@[simp] theorem State.loadProgram_tickIndex (s : State) (p : List Byte) : (s.loadProgram p).tickIndex = s.tickIndex := rfl

@[simp] theorem State.loadProgram_reg (s : State) (p : List Byte) (j : RegIdx) : (s.loadProgram p).reg j = s.reg j := rfl

@[simp] theorem State.loadProgram_sp (s : State) (p : List Byte) : (s.loadProgram p).sp = s.sp := rfl

/-! ### withFetchWord -/

@[simp] theorem State.withFetchWord_regs (s : State) (nbits w : Nat) : (s.withFetchWord nbits w).regs = s.regs := rfl

@[simp] theorem State.withFetchWord_pc (s : State) (nbits w : Nat) : (s.withFetchWord nbits w).pc = s.pc := rfl

@[simp] theorem State.withFetchWord_fl (s : State) (nbits w : Nat) : (s.withFetchWord nbits w).fl = s.fl := rfl

@[simp] theorem State.withFetchWord_mem (s : State) (nbits w : Nat) : (s.withFetchWord nbits w).mem = s.mem.writeBytes s.pc (wordBytes nbits w) := rfl

@[simp] theorem State.withFetchWord_eos (s : State) (nbits w : Nat) : (s.withFetchWord nbits w).eos = s.eos := rfl

@[simp] theorem State.withFetchWord_status (s : State) (nbits w : Nat) : (s.withFetchWord nbits w).status = s.status := rfl

@[simp] theorem State.withFetchWord_out (s : State) (nbits w : Nat) : (s.withFetchWord nbits w).out = s.out := rfl

@[simp] theorem State.withFetchWord_ticks (s : State) (nbits w : Nat) : (s.withFetchWord nbits w).ticks = s.ticks := rfl

@[simp] theorem State.withFetchWord_tickIndex (s : State) (nbits w : Nat) : (s.withFetchWord nbits w).tickIndex = s.tickIndex := rfl

@[simp] theorem State.withFetchWord_reg (s : State) (nbits w : Nat) (j : RegIdx) : (s.withFetchWord nbits w).reg j = s.reg j := rfl

@[simp] theorem State.withFetchWord_sp (s : State) (nbits w : Nat) : (s.withFetchWord nbits w).sp = s.sp := rfl

@[simp] theorem State.decSp_sp (s : State) : s.decSp.sp = s.sp - 1 := s.reg_setReg_same ..

@[simp] theorem State.incSp_sp (s : State) : s.incSp.sp = s.sp + 1 := s.reg_setReg_same ..

theorem State.decSp_reg (s : State) (j : RegIdx) :
    s.decSp.reg j = if j = Config.spIndex then s.sp - 1 else s.reg j := s.reg_setReg ..

theorem State.incSp_reg (s : State) (j : RegIdx) :
    s.incSp.reg j = if j = Config.spIndex then s.sp + 1 else s.reg j := s.reg_setReg ..

end Sys2Proof.Machine
end

