-- ==== Sys2Proof/Laws/Memory.lean ====
section
/-!
SUPPORT. The laws of the memory list: a read after a write, the canonical form, and that equal readings are equal lists.
-/

namespace Sys2Proof.Machine

namespace Memory

@[simp] theorem read_nil (a : Nat) : Memory.read [] a = 0 := rfl

theorem read_insert (m : Memory) (a c : Nat) (v : Byte) :
    (Memory.insert m a v).read c = if c = a then v else m.read c := by
  induction m with
  | nil => rfl
  | cons e m ih =>
    simp only [Memory.insert]
    split
    · rfl
    · split
      · subst_vars; simp only [Memory.read]; split <;> rfl
      · simp only [Memory.read, ih]; split <;> split <;> simp_all

theorem read_filter (m : Memory) (a c : Nat) :
    Memory.read (m.filter (fun e => e.1 != a)) c = if c = a then 0 else m.read c := by
  induction m with
  | nil => simp
  | cons e m ih =>
    by_cases h : e.1 = a
    · simp only [List.filter_cons, h, bne_self_eq_false, Bool.false_eq_true, ↓reduceIte, ih, Memory.read]
      split <;> rfl
    · simp only [List.filter_cons, bne_iff_ne, ne_eq, h, not_false_eq_true, ↓reduceIte, Memory.read, ih]
      split <;> split <;> simp_all

/-- A read after a write, at the same address and at every other. -/
theorem read_write (m : Memory) (a c : Nat) (v : Byte) :
    (m.write a v).read c = if c = a then v else m.read c := by
  unfold Memory.write
  split
  · rw [read_filter]; split <;> simp_all [Config.memInit]
  · exact read_insert m a c v

@[simp] theorem read_write_same (m : Memory) (a : Nat) (v : Byte) : (m.write a v).read a = v := by simp [read_write]

theorem read_write_ne (m : Memory) {a c : Nat} (v : Byte) (h : c ≠ a) : (m.write a v).read c = m.read c := by
  simp [read_write, h]

/-! ### The canonical form -/

theorem risingFrom_cons {lo a : Nat} {v : Byte} {m : Memory} :
    Memory.risingFrom lo ((a, v) :: m) = true ↔ lo ≤ a ∧ a < 256 ∧ v ≠ 0 ∧ Memory.risingFrom (a + 1) m = true := by
  change (decide (lo ≤ a) && decide (a < 256) && v != 0 && Memory.risingFrom (a + 1) m) = true ↔ _
  simp [and_assoc]

theorem risingFrom_mono {lo hi : Nat} {m : Memory} (h : Memory.risingFrom hi m = true) (le : lo ≤ hi) :
    Memory.risingFrom lo m = true := by
  cases m with
  | nil => rfl
  | cons e m => rw [risingFrom_cons] at h ⊢; exact ⟨by omega, h.2⟩

theorem risingFrom_filter {lo : Nat} {m : Memory} (p : Host.Cell → Bool) (h : Memory.risingFrom lo m = true) :
    Memory.risingFrom lo (m.filter p) = true := by
  induction m generalizing lo with
  | nil => rfl
  | cons e m ih =>
    obtain ⟨h1, h2, h3, h4⟩ := risingFrom_cons.1 h
    rw [List.filter_cons]
    split
    · exact risingFrom_cons.2 ⟨h1, h2, h3, ih h4⟩
    · exact risingFrom_mono (ih h4) (by omega)

theorem risingFrom_insert {lo a : Nat} {v : Byte} {m : Memory} (h : Memory.risingFrom lo m = true) (hl : lo ≤ a)
    (ha : a < 256) (hv : v ≠ 0) : Memory.risingFrom lo (Memory.insert m a v) = true := by
  induction m generalizing lo with
  | nil => exact risingFrom_cons.2 ⟨hl, ha, hv, rfl⟩
  | cons e m ih =>
    obtain ⟨h1, h2, h3, h4⟩ := risingFrom_cons.1 h
    simp only [Memory.insert]
    split
    · exact risingFrom_cons.2 ⟨hl, ha, hv, risingFrom_cons.2 ⟨by omega, h2, h3, h4⟩⟩
    · split
      · subst_vars; exact risingFrom_cons.2 ⟨hl, ha, hv, h4⟩
      · exact risingFrom_cons.2 ⟨h1, h2, h3, ih h4 (by omega)⟩

/-- A write at an address of the memory array keeps the canonical form. -/
theorem wf_write {m : Memory} (h : m.wf = true) {a : Nat} (ha : a < 256) (v : Byte) : (m.write a v).wf = true := by
  unfold Memory.write
  split
  · exact risingFrom_filter _ h
  · exact risingFrom_insert h (Nat.zero_le a) ha ‹_›

@[simp] theorem wf_write_byte {m : Memory} (h : m.wf = true) (a v : Byte) : (m.write a.toNat v).wf = true :=
  wf_write h a.isLt v

theorem wf_writeBytes {m : Memory} (h : m.wf = true) (a : Nat) (vs : List Byte) : (m.writeBytes a vs).wf = true := by
  induction vs generalizing m a with
  | nil => exact h
  | cons v vs ih =>
    simp only [Memory.writeBytes]
    split
    · exact ih (wf_write h ‹_› v) _
    · exact ih h _

/-- What a canonical list holds at an address below its first one. -/
theorem read_of_risingFrom {lo a : Nat} {m : Memory} (h : Memory.risingFrom lo m = true) (ha : a < lo) :
    m.read a = 0 := by
  induction m generalizing lo with
  | nil => rfl
  | cons e m ih =>
    obtain ⟨h1, -, -, h4⟩ := risingFrom_cons.1 h
    simp only [Memory.read]
    rw [if_neg (by omega)]
    exact ih h4 (by omega)

/-- What a run of stores leaves at an address. -/
theorem read_writeBytes (m : Memory) (a : Nat) (vs : List Byte) (h : a + vs.length ≤ 256) (c : Nat) :
    (m.writeBytes a vs).read c = if a ≤ c ∧ c < a + vs.length then vs.getD (c - a) 0 else m.read c := by
  induction vs generalizing m a with
  | nil => simp [Memory.writeBytes]
  | cons v vs ih =>
    simp only [List.length_cons] at h
    simp only [Memory.writeBytes, Config.memSize, show a < 256 by omega, ↓reduceIte]
    rw [ih (m.write a v) (a + 1) (by omega), read_write]
    by_cases hc : c = a
    · subst hc; simp
    · by_cases h2 : a ≤ c ∧ c < a + (vs.length + 1)
      · obtain ⟨k, rfl⟩ : ∃ k, c = a + 1 + k := ⟨c - (a + 1), by omega⟩
        rw [if_pos (by omega), if_pos (by simpa using h2), show a + 1 + k - (a + 1) = k by omega,
          show a + 1 + k - a = k + 1 by omega]
        simp
      · rw [if_neg (by omega), if_neg hc, if_neg (by simpa using h2)]

end Memory

end Sys2Proof.Machine
end

