-- ==== Sys2Proof/Laws/Ops.lean ====
section
/-!
SUPPORT. One lemma per shared operation that says what it can answer: accesses, operands, the advance, the stack's two
moves, and the stages of the interrupt check.
-/

namespace Sys2Proof.Machine

/-! ### The fields of the fourteen opcode bytes -/

@[simp] theorem operandCount_add : operandCount Opcode.add = 2 := by decide
@[simp] theorem operandCount_mul : operandCount Opcode.mul = 2 := by decide
@[simp] theorem operandCount_cmp : operandCount Opcode.cmp = 2 := by decide
@[simp] theorem operandCount_push : operandCount Opcode.push = 1 := by decide
@[simp] theorem operandCount_pop : operandCount Opcode.pop = 1 := by decide
@[simp] theorem operandCount_call : operandCount Opcode.call = 1 := by decide
@[simp] theorem operandCount_ret : operandCount Opcode.ret = 0 := by decide
@[simp] theorem operandCount_jmp : operandCount Opcode.jmp = 1 := by decide
@[simp] theorem operandCount_jeq : operandCount Opcode.jeq = 1 := by decide
@[simp] theorem operandCount_jne : operandCount Opcode.jne = 1 := by decide
@[simp] theorem operandCount_ldi : operandCount Opcode.ldi = 2 := by decide
@[simp] theorem operandCount_st : operandCount Opcode.st = 2 := by decide
@[simp] theorem operandCount_prn : operandCount Opcode.prn = 1 := by decide
@[simp] theorem operandCount_hlt : operandCount Opcode.hlt = 0 := by decide
@[simp] theorem setsPc_add : setsPc Opcode.add = false := by decide
@[simp] theorem setsPc_mul : setsPc Opcode.mul = false := by decide
@[simp] theorem setsPc_cmp : setsPc Opcode.cmp = false := by decide
@[simp] theorem setsPc_push : setsPc Opcode.push = false := by decide
@[simp] theorem setsPc_pop : setsPc Opcode.pop = false := by decide
@[simp] theorem setsPc_call : setsPc Opcode.call = true := by decide
@[simp] theorem setsPc_ret : setsPc Opcode.ret = true := by decide
@[simp] theorem setsPc_jmp : setsPc Opcode.jmp = true := by decide
@[simp] theorem setsPc_jeq : setsPc Opcode.jeq = true := by decide
@[simp] theorem setsPc_jne : setsPc Opcode.jne = true := by decide
@[simp] theorem setsPc_ldi : setsPc Opcode.ldi = false := by decide
@[simp] theorem setsPc_st : setsPc Opcode.st = false := by decide
@[simp] theorem setsPc_prn : setsPc Opcode.prn = false := by decide
@[simp] theorem setsPc_hlt : setsPc Opcode.hlt = false := by decide

/-! ### The advance and the end of a dispatch -/

theorem State.advance_sequential (s : State) {ir : Byte} (h : setsPc ir = false) :
    s.advance ir = s.setPc (s.pc + operandCount ir + 1) := by simp [State.advance, h]

theorem State.advance_setsPc (s : State) {ir : Byte} (h : setsPc ir = true) : s.advance ir = s := by
  simp [State.advance, h]

@[simp] theorem State.complete_ok (s s' : State) (ir : Byte) : s.complete ir (.ok s') = .next (s'.advance ir) := rfl

@[simp] theorem State.complete_error (s : State) (ir : Byte) (e : FatalError) :
    s.complete ir (.error e) = .next (s.raise e) := rfl

/-- A dispatch ends in the handler's state, advanced, or in the starting state with the error as its status. -/
theorem State.complete_cases (s : State) (ir : Byte) (r : Result) :
    (∃ s', r = .ok s' ∧ s.complete ir r = .next (s'.advance ir)) ∨
      ∃ e, r = .error e ∧ s.complete ir r = .next (s.raise e) := by
  cases r with
  | ok s' => exact .inl ⟨s', rfl, rfl⟩
  | error e => exact .inr ⟨e, rfl, rfl⟩

/-! ### Accesses -/

theorem inMemory_iff (a : Int) : inMemory a = true ↔ 0 ≤ a ∧ a < 256 := by
  change (decide (0 ≤ a) && decide (a < 256)) = true ↔ _
  simp

theorem State.memRead_ok (s : State) {a : Nat} (h : a < 256) : s.memRead (a : Int) = .ok (s.mem.read a) := by
  simp [State.memRead, (inMemory_iff (a : Int)).2 ⟨by omega, by omega⟩]

theorem State.memRead_error (s : State) {a : Int} (h : ¬(0 ≤ a ∧ a < 256)) :
    s.memRead a = .error (.outOfBounds a) := by
  rw [State.memRead, if_neg (mt (inMemory_iff a).1 h)]

@[simp] theorem State.memRead_byte (s : State) (a : Byte) : s.memRead (a.toNat : Int) = .ok (s.load a) :=
  s.memRead_ok a.isLt

@[simp] theorem State.memWrite_byte (s : State) (a v : Byte) : s.memWrite (a.toNat : Int) v = .ok (s.store a v) := by
  simp [State.memWrite, State.store, (inMemory_iff (a.toNat : Int)).2 ⟨by omega, by omega⟩]

theorem State.memWrite_error (s : State) {a : Int} (v : Byte) (h : ¬(0 ≤ a ∧ a < 256)) :
    s.memWrite a v = .error (.outOfBounds a) := by
  rw [State.memWrite, if_neg (mt (inMemory_iff a).1 h)]

/-! ### Operands -/

theorem State.regOperand_ok (s : State) {b : Byte} (h : b.toNat < 8) : s.regOperand b = .ok ⟨b.toNat, h⟩ := by
  simp [State.regOperand, h]

theorem State.regOperand_error (s : State) {b : Byte} (h : 8 ≤ b.toNat) :
    s.regOperand b = .error (.invalidRegister b s.pc) := by simp [State.regOperand, Nat.not_lt.2 h]

theorem State.regPair_ok (s : State) {ra rb : Byte} (ha : ra.toNat < 8) (hb : rb.toNat < 8) :
    s.regPair ra rb = .ok (⟨ra.toNat, ha⟩, ⟨rb.toNat, hb⟩) := by
  simp [State.regPair, s.regOperand_ok ha, s.regOperand_ok hb, bind, Except.bind]

theorem State.regPair_error_fst (s : State) {ra : Byte} (rb : Byte) (ha : 8 ≤ ra.toNat) :
    s.regPair ra rb = .error (.invalidRegister ra s.pc) := by
  simp [State.regPair, s.regOperand_error ha, bind, Except.bind]

theorem State.regPair_error_snd (s : State) {ra rb : Byte} (ha : ra.toNat < 8) (hb : 8 ≤ rb.toNat) :
    s.regPair ra rb = .error (.invalidRegister rb s.pc) := by
  simp [State.regPair, s.regOperand_ok ha, s.regOperand_error hb, bind, Except.bind]

/-! ### The stack -/

theorem State.overflow_iff (s : State) : s.overflow = true ↔ (s.sp.toNat : Int) - 1 < s.eos := by simp [State.overflow]

theorem State.underflow_iff (s : State) : s.underflow = true ↔ 0xF4 ≤ s.sp.toNat := by
  change decide (244 ≤ s.sp.toNat) = true ↔ _
  simp

theorem State.push_overflow (s : State) (f : State → Byte) (h : (s.sp.toNat : Int) - 1 < s.eos) :
    s.push f = .error (.stackOverflow s.sp s.pc) := by simp [State.push, s.overflow_iff.2 h]

/-- A push that does not overflow. -/
theorem State.push_ok (s : State) (f : State → Byte) (h : (s.eos : Int) ≤ (s.sp.toNat : Int) - 1) :
    s.push f = .ok (s.decSp.store (s.sp - 1) (f s.decSp)) := by
  have : s.overflow = false := by simp [State.overflow]; omega
  simp only [State.push, this, Bool.false_eq_true, ↓reduceIte, State.memWrite_byte, State.decSp_sp]

/-- Without an overflow the decremented SP is the integer one less. -/
theorem State.toNat_sp_sub_one (s : State) (h : (s.eos : Int) ≤ (s.sp.toNat : Int) - 1) :
    (s.sp - 1).toNat = s.sp.toNat - 1 := by
  generalize s.sp = b at h ⊢; bv_omega

theorem State.top_underflow (s : State) (h : 0xF4 ≤ s.sp.toNat) : s.top = .error (.stackUnderflow s.sp s.pc) := by
  simp [State.top, s.underflow_iff.2 h]

/-- A read of the stack top that does not underflow. -/
theorem State.top_ok (s : State) (h : s.sp.toNat < 0xF4) : s.top = .ok (s.load s.sp) := by
  have : s.underflow = false := by
    rw [Bool.eq_false_iff]; exact fun c => absurd (s.underflow_iff.1 c) (by omega)
  simp [State.top, this]

/-! ### The interrupt check -/

@[simp] theorem State.timerStage_false (s : State) : s.timerStage false = s := s.setReg_reg _

theorem State.timerStage_eq (s : State) (tick : Bool) :
    s.timerStage tick = s.setReg Config.isIndex (if tick then s.is ||| 0x01 else s.is) := rfl

/-- The masked bits are those of `IM & IS`. -/
theorem State.masked_eq (s : State) (i : Nat) : s.masked i = (s.im &&& s.is).getLsbD i := by
  simp [State.masked, BitVec.getLsbD_and]

/-- The scan saves once if one of its lines is masked in, and otherwise changes nothing. -/
theorem State.scanLines_eq (s : State) (l : List Nat) :
    s.scanLines l = if l.any s.masked then s.takeInterrupt else s := by
  induction l with
  | nil => rfl
  | cons i l ih => by_cases h : s.masked i = true <;> simp [State.scanLines, ih, h]

/-- Some line is masked in exactly when `IM & IS` is not zero. -/
theorem State.any_masked_iff (s : State) : Config.interruptLines.any s.masked = true ↔ s.im &&& s.is ≠ 0 := by
  rw [List.any_eq_true]
  constructor
  · rintro ⟨i, -, h⟩ h0
    rw [s.masked_eq, h0] at h
    simp at h
  · intro h
    by_contra hn
    push Not at hn
    refine h (BitVec.eq_of_getLsbD_eq fun i hi => ?_)
    have hm : i ∈ Config.interruptLines := by
      have : i < 8 := hi
      simp only [Config.interruptLines, List.mem_cons, List.not_mem_nil, or_false]; omega
    have := hn i hm
    rw [s.masked_eq] at this
    simpa using this

/-- THE INTERRUPT CHECK, whole: the timer stage, then one save if `IM & IS` is not zero after it. -/
theorem State.interruptCheck_eq (s : State) (tick : Bool) :
    s.interruptCheck tick =
      if (s.timerStage tick).im &&& (s.timerStage tick).is ≠ 0 then (s.timerStage tick).takeInterrupt
      else s.timerStage tick := by
  rw [State.interruptCheck, State.scanLines_eq]
  by_cases h : Config.interruptLines.any (s.timerStage tick).masked = true
  · rw [if_pos h, if_pos ((State.any_masked_iff _).1 h)]
  · rw [if_neg h, if_neg (mt (State.any_masked_iff _).2 h)]

@[simp] theorem State.timerStage_im (s : State) (tick : Bool) : (s.timerStage tick).im = s.im :=
  s.reg_setReg_ne _ (by decide)

@[simp] theorem State.timerStage_is (s : State) (tick : Bool) :
    (s.timerStage tick).is = if tick then s.is ||| 0x01 else s.is := s.reg_setReg_same ..

/-- What the save and its parts leave alone: everything but registers and memory. -/
structure State.SameBesides (s t : State) : Prop where
  pc : t.pc = s.pc
  fl : t.fl = s.fl
  eos : t.eos = s.eos
  status : t.status = s.status
  out : t.out = s.out
  ticks : t.ticks = s.ticks
  tickIndex : t.tickIndex = s.tickIndex

theorem State.SameBesides.refl (s : State) : s.SameBesides s := ⟨rfl, rfl, rfl, rfl, rfl, rfl, rfl⟩

theorem State.SameBesides.trans {s t u : State} (h : s.SameBesides t) (k : t.SameBesides u) : s.SameBesides u :=
  ⟨k.pc.trans h.pc, k.fl.trans h.fl, k.eos.trans h.eos, k.status.trans h.status, k.out.trans h.out,
    k.ticks.trans h.ticks, k.tickIndex.trans h.tickIndex⟩

theorem State.foldl_pushDirect_same (vs : List Byte) (s : State) : s.SameBesides (vs.foldl State.pushDirect s) := by
  induction vs generalizing s with
  | nil => exact .refl s
  | cons v vs ih =>
    have h : s.SameBesides (s.pushDirect v) := ⟨rfl, rfl, rfl, rfl, rfl, rfl, rfl⟩
    exact h.trans (ih (s.pushDirect v))

theorem State.takeInterrupt_same (s : State) : s.SameBesides s.takeInterrupt := by
  have h : s.SameBesides s.clearInterrupts := ⟨rfl, rfl, rfl, rfl, rfl, rfl, rfl⟩
  exact h.trans (State.foldl_pushDirect_same _ s.clearInterrupts)

/-- The interrupt check raises nothing and changes only registers and memory. -/
theorem State.interruptCheck_same (s : State) (tick : Bool) : s.SameBesides (s.interruptCheck tick) := by
  have h : s.SameBesides (s.timerStage tick) := ⟨rfl, rfl, rfl, rfl, rfl, rfl, rfl⟩
  rw [s.interruptCheck_eq]
  split
  · exact h.trans (State.takeInterrupt_same _)
  · exact h

theorem State.foldl_pushDirect_wf (vs : List Byte) (s : State) (h : s.mem.wf = true) :
    (vs.foldl State.pushDirect s).mem.wf = true := by
  induction vs generalizing s with
  | nil => exact h
  | cons v vs ih => exact ih _ (Memory.wf_write_byte h _ v)

theorem State.interruptCheck_wf (s : State) (tick : Bool) (h : s.mem.wf = true) :
    (s.interruptCheck tick).mem.wf = true := by
  rw [s.interruptCheck_eq]
  split
  · exact State.foldl_pushDirect_wf _ _ h
  · exact h

/-- A run of direct pushes lowers SP by their number, modulo 256. -/
theorem State.foldl_pushDirect_sp (vs : List Byte) (s : State) :
    (vs.foldl State.pushDirect s).sp = s.sp - BitVec.ofNat 8 vs.length := by
  induction vs generalizing s with
  | nil => simp
  | cons v vs ih =>
    rw [List.foldl_cons, ih, List.length_cons]
    change s.decSp.sp - _ = _
    rw [s.decSp_sp, BitVec.ofNat_add, BitVec.sub_sub, BitVec.add_comm]
    rfl

/-- A run of direct pushes changes no register but SP. -/
theorem State.foldl_pushDirect_reg (vs : List Byte) (s : State) {j : RegIdx} (h : j ≠ Config.spIndex) :
    (vs.foldl State.pushDirect s).reg j = s.reg j := by
  induction vs generalizing s with
  | nil => rfl
  | cons v vs ih =>
    rw [List.foldl_cons, ih]
    exact s.reg_setReg_ne _ h

/-- A run of direct pushes of at most 256 bytes leaves a byte that is not in its range alone. -/
theorem State.foldl_pushDirect_read_ne (vs : List Byte) (s : State) (a : Nat)
    (h : ∀ k < vs.length, a ≠ (s.sp - BitVec.ofNat 8 (k + 1)).toNat) :
    (vs.foldl State.pushDirect s).mem.read a = s.mem.read a := by
  induction vs generalizing s with
  | nil => rfl
  | cons v vs ih =>
    rw [List.foldl_cons, ih]
    · exact Memory.read_write_ne _ _ (by simpa using h 0 (by simp))
    · intro k hk
      have := h (k + 1) (by simpa using hk)
      change a ≠ (s.decSp.sp - _).toNat
      rw [s.decSp_sp, BitVec.sub_sub]
      rwa [BitVec.ofNat_add (k + 1) 1, BitVec.add_comm] at this

/-- The k-th direct push of a run of at most 256 lands at SP - (k + 1), modulo 256. -/
theorem State.foldl_pushDirect_read (vs : List Byte) (s : State) (hl : vs.length ≤ 256) (k : Nat) (hk : k < vs.length) :
    (vs.foldl State.pushDirect s).mem.read (s.sp - BitVec.ofNat 8 (k + 1)).toNat = vs[k] := by
  induction vs generalizing s k with
  | nil => simp at hk
  | cons v vs ih =>
    simp only [List.length_cons] at hl hk
    cases k with
    | zero =>
      rw [List.foldl_cons, State.foldl_pushDirect_read_ne]
      · change (s.mem.write s.decSp.sp.toNat v).read (s.sp - 1#8).toNat = v
        rw [s.decSp_sp]
        exact Memory.read_write_same ..
      · intro j hj
        change _ ≠ (s.decSp.sp - _).toNat
        rw [s.decSp_sp]
        generalize s.sp = b
        intro e
        have := BitVec.eq_of_toNat_eq e
        have h0 : BitVec.ofNat 8 (j + 1) = 0#8 := by
          rw [BitVec.sub_sub] at this
          have h2 := congrArg (fun x => b - 1#8 - x) this
          simpa [BitVec.sub_sub] using this
        have := congrArg BitVec.toNat h0
        simp at this
        omega
    | succ k =>
      have := ih (s.pushDirect v) (by omega) k (by omega)
      change (List.foldl State.pushDirect (s.pushDirect v) vs).mem.read (s.decSp.sp - _).toNat = _ at this
      rw [s.decSp_sp, BitVec.sub_sub] at this
      rw [List.foldl_cons, BitVec.ofNat_add (k + 1) 1, BitVec.add_comm, List.getElem_cons_succ]
      exact this

end Sys2Proof.Machine
end

