-- ==== Sys2Proof/Laws/Exec.lean ====
section
/-!
SUPPORT. What each meaning answers: one lemma for the run of the instruction on operands that name registers, and one for
each error it can raise. Later proofs cite these and do not unfold a meaning.
-/

namespace Sys2Proof.Machine

section RegisterPairs

variable (s : State) {ra rb : Byte}

theorem exec_add_ok (ha : ra.toNat < 8) (hb : rb.toNat < 8) :
    exec (.add ra rb) s =
      .next ((s.setReg ⟨ra.toNat, ha⟩ (addBytes (s.reg ⟨ra.toNat, ha⟩) (s.reg ⟨rb.toNat, hb⟩))).setPc (s.pc + 3)) := by
  simp [exec, execAdd, s.regPair_ok ha hb, bind, Except.bind, State.alu, State.advance]

theorem exec_mul_ok (ha : ra.toNat < 8) (hb : rb.toNat < 8) :
    exec (.mul ra rb) s =
      .next ((s.setReg ⟨ra.toNat, ha⟩ (mulBytes (s.reg ⟨ra.toNat, ha⟩) (s.reg ⟨rb.toNat, hb⟩))).setPc (s.pc + 3)) := by
  simp [exec, execMul, s.regPair_ok ha hb, bind, Except.bind, State.alu, State.advance, Opcode.mul, Opcode.add, setsPc,
    operandCount]

theorem exec_cmp_ok (ha : ra.toNat < 8) (hb : rb.toNat < 8) :
    exec (.cmp ra rb) s =
      .next ((s.setFl (compareFlags (s.reg ⟨ra.toNat, ha⟩) (s.reg ⟨rb.toNat, hb⟩))).setPc (s.pc + 3)) := by
  simp [exec, execCmp, s.regPair_ok ha hb, bind, Except.bind, State.alu, State.advance, Opcode.cmp, Opcode.mul,
    Opcode.add, setsPc, operandCount]

theorem exec_st_ok (ha : ra.toNat < 8) (hb : rb.toNat < 8) :
    exec (.st ra rb) s =
      .next ((s.store (s.reg ⟨ra.toNat, ha⟩) (s.reg ⟨rb.toNat, hb⟩)).setPc (s.pc + 3)) := by
  simp [exec, execSt, s.regPair_ok ha hb, bind, Except.bind, State.indirect, State.advance]

end RegisterPairs

section OneRegister

variable (s : State) {r : Byte} (h : r.toNat < 8)
include h

theorem exec_push_ok (ho : (s.eos : Int) ≤ (s.sp.toNat : Int) - 1) :
    exec (.push r) s = .next ((s.decSp.store (s.sp - 1) (s.decSp.reg ⟨r.toNat, h⟩)).setPc (s.pc + 2)) := by
  simp [exec, execPush, s.regOperand_ok h, bind, Except.bind, s.push_ok _ ho, State.advance]

theorem exec_push_overflow (ho : (s.sp.toNat : Int) - 1 < s.eos) :
    exec (.push r) s = .next (s.raise (.stackOverflow s.sp s.pc)) := by
  simp [exec, execPush, s.regOperand_ok h, bind, Except.bind, s.push_overflow _ ho]

theorem exec_pop_ok (hu : s.sp.toNat < 0xF4) :
    exec (.pop r) s = .next ((s.setReg ⟨r.toNat, h⟩ (s.load s.sp)).incSp.setPc (s.pc + 2)) := by
  simp [exec, execPop, s.regOperand_ok h, bind, Except.bind, s.top_ok hu, State.advance]

theorem exec_pop_underflow (hu : 0xF4 ≤ s.sp.toNat) :
    exec (.pop r) s = .next (s.raise (.stackUnderflow s.sp s.pc)) := by
  simp [exec, execPop, s.regOperand_ok h, bind, Except.bind, s.top_underflow hu]

theorem exec_call_ok (ho : (s.eos : Int) ≤ (s.sp.toNat : Int) - 1) :
    exec (.call r) s =
      .next ((s.decSp.store (s.sp - 1) (BitVec.ofNat 8 (s.pc + 2))).setPc (s.decSp.reg ⟨r.toNat, h⟩).toNat) := by
  simp [exec, execCall, s.regOperand_ok h, bind, Except.bind, s.push_ok _ ho, State.advance, State.indirect]

theorem exec_call_overflow (ho : (s.sp.toNat : Int) - 1 < s.eos) :
    exec (.call r) s = .next (s.raise (.stackOverflow s.sp s.pc)) := by
  simp [exec, execCall, s.regOperand_ok h, bind, Except.bind, s.push_overflow _ ho]

theorem exec_jmp_ok : exec (.jmp r) s = .next (s.setPc (s.reg ⟨r.toNat, h⟩).toNat) := by
  simp [exec, execJmp, s.regOperand_ok h, bind, Except.bind, State.advance, State.indirect]

theorem exec_jeq_ok :
    exec (.jeq r) s = .next (s.setPc (if s.fl = 0x01 then (s.reg ⟨r.toNat, h⟩).toNat else s.pc + 2)) := by
  simp [exec, execJeq, s.regOperand_ok h, bind, Except.bind, State.advance, State.indirect, isEqual, flEqual]

theorem exec_jne_ok :
    exec (.jne r) s = .next (s.setPc (if s.fl = 0x01 then s.pc + 2 else (s.reg ⟨r.toNat, h⟩).toNat)) := by
  simp [exec, execJne, s.regOperand_ok h, bind, Except.bind, State.advance, State.indirect, isEqual, flEqual]

theorem exec_ldi_ok (v : Byte) : exec (.ldi r v) s = .next ((s.setReg ⟨r.toNat, h⟩ v).setPc (s.pc + 3)) := by
  simp [exec, execLdi, s.regOperand_ok h, bind, Except.bind, State.advance, immediate]

theorem exec_prn_ok : exec (.prn r) s = .next ((s.emit (s.reg ⟨r.toNat, h⟩)).setPc (s.pc + 2)) := by
  simp [exec, execPrn, s.regOperand_ok h, bind, Except.bind, State.advance]

end OneRegister

theorem exec_ret_ok (s : State) (hu : s.sp.toNat < 0xF4) :
    exec .ret s = .next (s.setPc (s.load s.sp).toNat).incSp := by
  simp [exec, execRet, bind, Except.bind, s.top_ok hu, State.advance]

theorem exec_ret_underflow (s : State) (hu : 0xF4 ≤ s.sp.toNat) :
    exec .ret s = .next (s.raise (.stackUnderflow s.sp s.pc)) := by
  simp [exec, execRet, bind, Except.bind, s.top_underflow hu]

theorem exec_hlt_eq (s : State) : exec .hlt s = .next ((s.setStatus .halted).setPc (s.pc + 1)) := by
  simp [exec, execHlt, State.advance]

/-! ### Operands that name no register -/

theorem exec_add_checks (s : State) (ra rb : Byte) : ChecksPair (.add ra rb) s ra rb := by
  refine ⟨fun h => ?_, fun h1 h2 => ?_⟩
  · simp [Raises, exec, execAdd, s.regPair_error_fst rb h, bind, Except.bind, State.raise, State.setStatus]
  · simp [Raises, exec, execAdd, s.regPair_error_snd h1 h2, bind, Except.bind, State.raise, State.setStatus]

theorem exec_mul_checks (s : State) (ra rb : Byte) : ChecksPair (.mul ra rb) s ra rb := by
  refine ⟨fun h => ?_, fun h1 h2 => ?_⟩
  · simp [Raises, exec, execMul, s.regPair_error_fst rb h, bind, Except.bind, State.raise, State.setStatus]
  · simp [Raises, exec, execMul, s.regPair_error_snd h1 h2, bind, Except.bind, State.raise, State.setStatus]

theorem exec_cmp_checks (s : State) (ra rb : Byte) : ChecksPair (.cmp ra rb) s ra rb := by
  refine ⟨fun h => ?_, fun h1 h2 => ?_⟩
  · simp [Raises, exec, execCmp, s.regPair_error_fst rb h, bind, Except.bind, State.raise, State.setStatus]
  · simp [Raises, exec, execCmp, s.regPair_error_snd h1 h2, bind, Except.bind, State.raise, State.setStatus]

theorem exec_st_checks (s : State) (ra rb : Byte) : ChecksPair (.st ra rb) s ra rb := by
  refine ⟨fun h => ?_, fun h1 h2 => ?_⟩
  · simp [Raises, exec, execSt, s.regPair_error_fst rb h, bind, Except.bind, State.raise, State.setStatus]
  · simp [Raises, exec, execSt, s.regPair_error_snd h1 h2, bind, Except.bind, State.raise, State.setStatus]

theorem exec_push_checks (s : State) (r : Byte) : ChecksOne (.push r) s r := fun h => by
  simp [Raises, exec, execPush, s.regOperand_error h, bind, Except.bind, State.raise, State.setStatus]

theorem exec_pop_checks (s : State) (r : Byte) : ChecksOne (.pop r) s r := fun h => by
  simp [Raises, exec, execPop, s.regOperand_error h, bind, Except.bind, State.raise, State.setStatus]

theorem exec_call_checks (s : State) (r : Byte) : ChecksOne (.call r) s r := fun h => by
  simp [Raises, exec, execCall, s.regOperand_error h, bind, Except.bind, State.raise, State.setStatus]

theorem exec_jmp_checks (s : State) (r : Byte) : ChecksOne (.jmp r) s r := fun h => by
  simp [Raises, exec, execJmp, s.regOperand_error h, bind, Except.bind, State.raise, State.setStatus]

theorem exec_jeq_checks (s : State) (r : Byte) : ChecksOne (.jeq r) s r := fun h => by
  simp [Raises, exec, execJeq, s.regOperand_error h, bind, Except.bind, State.raise, State.setStatus]

theorem exec_jne_checks (s : State) (r : Byte) : ChecksOne (.jne r) s r := fun h => by
  simp [Raises, exec, execJne, s.regOperand_error h, bind, Except.bind, State.raise, State.setStatus]

theorem exec_prn_checks (s : State) (r : Byte) : ChecksOne (.prn r) s r := fun h => by
  simp [Raises, exec, execPrn, s.regOperand_error h, bind, Except.bind, State.raise, State.setStatus]

theorem exec_ldi_checks (s : State) (r v : Byte) : ChecksOne (.ldi r v) s r := fun h => by
  simp [Raises, exec, execLdi, s.regOperand_error h, bind, Except.bind, State.raise, State.setStatus]

end Sys2Proof.Machine
end

