-- ==== Sys2Proof/Laws/PerInstr.lean ====
section
/-!
SUPPORT. The family EncodingShape: an encoding is the opcode byte, which is one of the table's, and then as many operand
bytes as its two high bits say (R51, R57); one lemma per constructor of Instr.
-/

namespace Sys2Proof.Laws.EncodingShape

/-- The shape of an instruction's encoding. -/
def Statement (i : Instr) : Prop :=
  (encode i).head? = some i.opcode ∧ (encode i).length = instrLength i.opcode ∧ i.opcode ∈ opcodeTable

theorem add (ra rb : Byte) : Statement (.add ra rb) :=
  ⟨rfl, by simp [encode, Instr.operands, Instr.opcode, instrLength], show Opcode.add ∈ opcodeTable by decide⟩
theorem mul (ra rb : Byte) : Statement (.mul ra rb) :=
  ⟨rfl, by simp [encode, Instr.operands, Instr.opcode, instrLength], show Opcode.mul ∈ opcodeTable by decide⟩
theorem cmp (ra rb : Byte) : Statement (.cmp ra rb) :=
  ⟨rfl, by simp [encode, Instr.operands, Instr.opcode, instrLength], show Opcode.cmp ∈ opcodeTable by decide⟩
theorem push (r : Byte) : Statement (.push r) :=
  ⟨rfl, by simp [encode, Instr.operands, Instr.opcode, instrLength], show Opcode.push ∈ opcodeTable by decide⟩
theorem pop (r : Byte) : Statement (.pop r) :=
  ⟨rfl, by simp [encode, Instr.operands, Instr.opcode, instrLength], show Opcode.pop ∈ opcodeTable by decide⟩
theorem call (r : Byte) : Statement (.call r) :=
  ⟨rfl, by simp [encode, Instr.operands, Instr.opcode, instrLength], show Opcode.call ∈ opcodeTable by decide⟩
theorem ret : Statement .ret :=
  ⟨rfl, by simp [encode, Instr.operands, Instr.opcode, instrLength], show Opcode.ret ∈ opcodeTable by decide⟩
theorem jmp (r : Byte) : Statement (.jmp r) :=
  ⟨rfl, by simp [encode, Instr.operands, Instr.opcode, instrLength], show Opcode.jmp ∈ opcodeTable by decide⟩
theorem jeq (r : Byte) : Statement (.jeq r) :=
  ⟨rfl, by simp [encode, Instr.operands, Instr.opcode, instrLength], show Opcode.jeq ∈ opcodeTable by decide⟩
theorem jne (r : Byte) : Statement (.jne r) :=
  ⟨rfl, by simp [encode, Instr.operands, Instr.opcode, instrLength], show Opcode.jne ∈ opcodeTable by decide⟩
theorem ldi (r value : Byte) : Statement (.ldi r value) :=
  ⟨rfl, by simp [encode, Instr.operands, Instr.opcode, instrLength], show Opcode.ldi ∈ opcodeTable by decide⟩
theorem st (ra rb : Byte) : Statement (.st ra rb) :=
  ⟨rfl, by simp [encode, Instr.operands, Instr.opcode, instrLength], show Opcode.st ∈ opcodeTable by decide⟩
theorem prn (r : Byte) : Statement (.prn r) :=
  ⟨rfl, by simp [encode, Instr.operands, Instr.opcode, instrLength], show Opcode.prn ∈ opcodeTable by decide⟩
theorem hlt : Statement .hlt :=
  ⟨rfl, by simp [encode, Instr.operands, Instr.opcode, instrLength], show Opcode.hlt ∈ opcodeTable by decide⟩

end Sys2Proof.Laws.EncodingShape
end

