-- ==== Sys2Proof/Laws/Step.lean ====
section
/-!
SUPPORT. The step in terms of its stages, and what the taken interrupt check leaves, and the two inversions: every
outcome of exec and every outcome of a step of a running core.
-/

namespace Sys2Proof.Machine

theorem step_running {s : State} (h : s.status = .running) : step s = s.cycle s.tickInput := by simp [step, h]

/-- A fetch with its three addresses inside memory reads the latch. -/
theorem State.fetch_ok (s : State) (h : s.pc ≤ 253) : s.fetch = .ok s.latch := by
  have h1 := s.memRead_ok (a := s.pc) (by omega)
  have h2 := s.memRead_ok (a := s.pc + 1) (by omega)
  have h3 := s.memRead_ok (a := s.pc + 2) (by omega)
  push_cast at h2 h3
  simp only [State.fetch, h1, h2, h3, bind, Except.bind]
  rfl

/-- A running core whose fetch succeeds dispatches the latch on the checked state. -/
theorem step_fetched {s : State} (h : s.status = .running) (hp : s.pc ≤ 253) : step s = s.checked.dispatch s.latch := by
  refine (step_running h).trans ?_
  unfold State.cycle
  rw [s.fetch_ok hp]
  simp only [State.checked]

theorem State.dispatch_some (s : State) {l : Latch} {i : Instr} (h : decodeLatch l = some i) : s.dispatch l = exec i s := by
  simp [State.dispatch, h]

theorem State.dispatch_none (s : State) {l : Latch} (h : decodeLatch l = none) :
    s.dispatch l = .next (s.raise (.unknownInstruction l.ir s.pc)) := by
  simp [State.dispatch, h]

/-- The two cases of the interrupt check. -/
theorem State.interruptCheck_taken (s : State) {tick : Bool} (h : s.TakesInterrupt tick) :
    s.interruptCheck tick = (s.timerStage tick).takeInterrupt := by
  rw [s.interruptCheck_eq, s.timerStage_im, s.timerStage_is]
  exact if_pos h

theorem State.interruptCheck_untaken (s : State) {tick : Bool} (h : ¬ s.TakesInterrupt tick) :
    s.interruptCheck tick = s.timerStage tick := by
  rw [s.interruptCheck_eq, s.timerStage_im, s.timerStage_is]
  exact if_neg h

/-- The check leaves everything but registers and memory; the sampled inputs are gone. -/
theorem State.checked_same (s : State) : s.sampleTick.SameBesides s.checked := State.interruptCheck_same ..

theorem State.clearInterrupts_reg (s : State) (j : RegIdx) :
    s.clearInterrupts.reg j = if j = 5 ∨ j = 6 then 0 else s.reg j := by
  simp only [State.clearInterrupts, State.reg_setReg, Config.imIndex, Config.isIndex]
  split <;> split <;> simp_all

theorem State.timerStage_reg (s : State) (tick : Bool) {j : RegIdx} (h : j ≠ 6) : (s.timerStage tick).reg j = s.reg j :=
  s.reg_setReg_ne _ h

/-- What a taken interrupt saves, once IM and IS are cleared. -/
theorem State.clearInterrupts_savedValues (s : State) (tick : Bool) :
    (s.timerStage tick).clearInterrupts.savedValues =
      [BitVec.ofNat 8 s.pc, s.fl, s.reg 0, s.reg 1, s.reg 2, s.reg 3, s.reg 4, 0, 0] := by
  simp only [State.savedValues, State.clearInterrupts_reg]
  simp only [State.timerStage_reg, State.clearInterrupts, ne_eq, Fin.reduceEq, not_false_eq_true, Fin.isValue, or_self,
    or_true, true_or, ↓reduceIte]
  rfl

theorem State.clearInterrupts_sp (s : State) (tick : Bool) : (s.timerStage tick).clearInterrupts.sp = s.sp := by
  rw [State.sp_eq, State.clearInterrupts_reg, if_neg (by decide), State.timerStage_reg _ _ (by decide), ← State.sp_eq]

/-! ### Every outcome of exec -/

/-- What a handler that does not raise leaves, beside its own result. -/
structure Completes (i : Instr) (s t : State) : Prop where
  eos : t.eos = s.eos
  ticks : t.ticks = s.ticks
  tickIndex : t.tickIndex = s.tickIndex
  status : t.status = if i = .hlt then .halted else s.status
  fl : t.fl ≠ s.fl → (∃ ra rb, i = .cmp ra rb) ∧ t.fl ∈ legalFlags
  mem_wf : s.mem.wf = true → t.mem.wf = true
  mem : t.mem = s.mem ∨ ((∃ ra rb, i = .st ra rb) ∨ (∃ r, i = .push r) ∨ ∃ r, i = .call r)
  pc_le : s.pc ≤ 253 → t.pc ≤ 256
  pc : setsPc i.opcode = false → t.pc = s.pc + operandCount i.opcode + 1
  out : t.out = s.out ∨ ∃ r, ∃ h : r.toNat < 8, i = .prn r ∧ t.out = s.out ++ [s.reg ⟨r.toNat, h⟩]

/-- The stack errors of an instruction whose operands name registers. -/
def StackError (i : Instr) (s : State) (e : FatalError) : Prop :=
  (e = .stackOverflow s.sp s.pc ∧ ((∃ r, i = .push r) ∨ ∃ r, i = .call r)) ∨
    (e = .stackUnderflow s.sp s.pc ∧ ((∃ r, i = .pop r) ∨ i = .ret))

theorem compareFlags_legal (a b : Byte) : compareFlags a b ∈ legalFlags := by
  unfold compareFlags
  split
  · decide
  · split <;> decide

theorem Byte.toNat_le_256 (b : Byte) : b.toNat ≤ 256 := by omega

/-- EVERY OUTCOME OF EXEC: the first register operand that names no register raises; else a stack check may raise; else the
instruction completes. -/
theorem exec_cases (i : Instr) (s : State) :
    (∃ b, i.registerOperands.find? (fun c => !namesRegister c) = some b ∧
        exec i s = .next (s.raise (.invalidRegister b s.pc))) ∨
      (i.wellFormed = true ∧ ∃ e, exec i s = .next (s.raise e) ∧ StackError i s e) ∨
      (i.wellFormed = true ∧ ∃ t, exec i s = .next t ∧ Completes i s t) := by
  cases i with
  | add ra rb =>
    rcases Nat.lt_or_ge ra.toNat 8 with ha | ha
    · rcases Nat.lt_or_ge rb.toNat 8 with hb | hb
      · right; right
        refine ⟨by simp [Instr.wellFormed, Instr.registerOperands, namesRegister, ha, hb], _, exec_add_ok s ha hb, ?_⟩
        constructor <;> simp [Instr.opcode]
      · left; exact ⟨rb, by simp [Instr.registerOperands, namesRegister, List.find?, ha, Nat.not_lt.2 hb], (exec_add_checks s ra rb).2 ha hb⟩
    · left; exact ⟨ra, by simp [Instr.registerOperands, namesRegister, Nat.not_lt.2 ha], (exec_add_checks s ra rb).1 ha⟩
  | mul ra rb =>
    rcases Nat.lt_or_ge ra.toNat 8 with ha | ha
    · rcases Nat.lt_or_ge rb.toNat 8 with hb | hb
      · right; right
        refine ⟨by simp [Instr.wellFormed, Instr.registerOperands, namesRegister, ha, hb], _, exec_mul_ok s ha hb, ?_⟩
        constructor <;> simp [Instr.opcode]
      · left; exact ⟨rb, by simp [Instr.registerOperands, namesRegister, List.find?, ha, Nat.not_lt.2 hb], (exec_mul_checks s ra rb).2 ha hb⟩
    · left; exact ⟨ra, by simp [Instr.registerOperands, namesRegister, Nat.not_lt.2 ha], (exec_mul_checks s ra rb).1 ha⟩
  | cmp ra rb =>
    rcases Nat.lt_or_ge ra.toNat 8 with ha | ha
    · rcases Nat.lt_or_ge rb.toNat 8 with hb | hb
      · right; right
        refine ⟨by simp [Instr.wellFormed, Instr.registerOperands, namesRegister, ha, hb], _, exec_cmp_ok s ha hb, ?_⟩
        constructor <;> simp [Instr.opcode, compareFlags_legal]
      · left; exact ⟨rb, by simp [Instr.registerOperands, namesRegister, List.find?, ha, Nat.not_lt.2 hb], (exec_cmp_checks s ra rb).2 ha hb⟩
    · left; exact ⟨ra, by simp [Instr.registerOperands, namesRegister, Nat.not_lt.2 ha], (exec_cmp_checks s ra rb).1 ha⟩
  | st ra rb =>
    rcases Nat.lt_or_ge ra.toNat 8 with ha | ha
    · rcases Nat.lt_or_ge rb.toNat 8 with hb | hb
      · right; right
        refine ⟨by simp [Instr.wellFormed, Instr.registerOperands, namesRegister, ha, hb], _, exec_st_ok s ha hb, ?_⟩
        constructor <;> simp [Instr.opcode]
        exact fun h => Memory.wf_write_byte h _ _
      · left; exact ⟨rb, by simp [Instr.registerOperands, namesRegister, List.find?, ha, Nat.not_lt.2 hb], (exec_st_checks s ra rb).2 ha hb⟩
    · left; exact ⟨ra, by simp [Instr.registerOperands, namesRegister, Nat.not_lt.2 ha], (exec_st_checks s ra rb).1 ha⟩
  | push r =>
    rcases Nat.lt_or_ge r.toNat 8 with h | h
    · right
      have wf : Instr.wellFormed (.push r) = true := by simp [Instr.wellFormed, Instr.registerOperands, namesRegister, h]
      by_cases ho : (s.sp.toNat : Int) - 1 < s.eos
      · left; exact ⟨wf, _, exec_push_overflow s h ho, .inl ⟨rfl, .inl ⟨r, rfl⟩⟩⟩
      · right; refine ⟨wf, _, exec_push_ok s h (by omega), ?_⟩
        constructor <;> simp [Instr.opcode]
        · exact fun h => by simpa using Memory.wf_write_byte h (s.sp - 1) _
        · omega
    · left; exact ⟨r, by simp [Instr.registerOperands, namesRegister, Nat.not_lt.2 h], exec_push_checks s r h⟩
  | call r =>
    rcases Nat.lt_or_ge r.toNat 8 with h | h
    · right
      have wf : Instr.wellFormed (.call r) = true := by simp [Instr.wellFormed, Instr.registerOperands, namesRegister, h]
      by_cases ho : (s.sp.toNat : Int) - 1 < s.eos
      · left; exact ⟨wf, _, exec_call_overflow s h ho, .inl ⟨rfl, .inr ⟨r, rfl⟩⟩⟩
      · right; refine ⟨wf, _, exec_call_ok s h (by omega), ?_⟩
        constructor <;> simp [Instr.opcode]
        · exact fun h => by simpa using Memory.wf_write_byte h (s.sp - 1) _
        · exact fun _ => Byte.toNat_le_256 _
    · left; exact ⟨r, by simp [Instr.registerOperands, namesRegister, Nat.not_lt.2 h], exec_call_checks s r h⟩
  | pop r =>
    rcases Nat.lt_or_ge r.toNat 8 with h | h
    · right
      have wf : Instr.wellFormed (.pop r) = true := by simp [Instr.wellFormed, Instr.registerOperands, namesRegister, h]
      by_cases ho : 0xF4 ≤ s.sp.toNat
      · left; exact ⟨wf, _, exec_pop_underflow s h ho, .inr ⟨rfl, .inl ⟨r, rfl⟩⟩⟩
      · right; refine ⟨wf, _, exec_pop_ok s h (by omega), ?_⟩
        constructor <;> simp [Instr.opcode]
        omega
    · left; exact ⟨r, by simp [Instr.registerOperands, namesRegister, Nat.not_lt.2 h], exec_pop_checks s r h⟩
  | ret =>
    right
    by_cases ho : 0xF4 ≤ s.sp.toNat
    · left; exact ⟨rfl, _, exec_ret_underflow s ho, .inr ⟨rfl, .inr rfl⟩⟩
    · right; refine ⟨rfl, _, exec_ret_ok s (by omega), ?_⟩
      constructor <;> simp [Instr.opcode]
      exact fun _ => Byte.toNat_le_256 _
  | jmp r =>
    rcases Nat.lt_or_ge r.toNat 8 with h | h
    · right; right
      refine ⟨by simp [Instr.wellFormed, Instr.registerOperands, namesRegister, h], _, exec_jmp_ok s h, ?_⟩
      constructor <;> simp [Instr.opcode]
      exact fun _ => Byte.toNat_le_256 _
    · left; exact ⟨r, by simp [Instr.registerOperands, namesRegister, Nat.not_lt.2 h], exec_jmp_checks s r h⟩
  | jeq r =>
    rcases Nat.lt_or_ge r.toNat 8 with h | h
    · right; right
      refine ⟨by simp [Instr.wellFormed, Instr.registerOperands, namesRegister, h], _, exec_jeq_ok s h, ?_⟩
      constructor <;> simp [Instr.opcode]
      intro hp
      split
      · exact Byte.toNat_le_256 _
      · omega
    · left; exact ⟨r, by simp [Instr.registerOperands, namesRegister, Nat.not_lt.2 h], exec_jeq_checks s r h⟩
  | jne r =>
    rcases Nat.lt_or_ge r.toNat 8 with h | h
    · right; right
      refine ⟨by simp [Instr.wellFormed, Instr.registerOperands, namesRegister, h], _, exec_jne_ok s h, ?_⟩
      constructor <;> simp [Instr.opcode]
      intro hp
      split
      · omega
      · exact Byte.toNat_le_256 _
    · left; exact ⟨r, by simp [Instr.registerOperands, namesRegister, Nat.not_lt.2 h], exec_jne_checks s r h⟩
  | ldi r v =>
    rcases Nat.lt_or_ge r.toNat 8 with h | h
    · right; right
      refine ⟨by simp [Instr.wellFormed, Instr.registerOperands, namesRegister, h], _, exec_ldi_ok s h v, ?_⟩
      constructor <;> simp [Instr.opcode]
    · left; exact ⟨r, by simp [Instr.registerOperands, namesRegister, Nat.not_lt.2 h], exec_ldi_checks s r v h⟩
  | prn r =>
    rcases Nat.lt_or_ge r.toNat 8 with h | h
    · right; right
      refine ⟨by simp [Instr.wellFormed, Instr.registerOperands, namesRegister, h], _, exec_prn_ok s h, ?_⟩
      constructor <;> simp [Instr.opcode, h]
      omega
    · left; exact ⟨r, by simp [Instr.registerOperands, namesRegister, Nat.not_lt.2 h], exec_prn_checks s r h⟩
  | hlt =>
    right; right
    refine ⟨rfl, _, exec_hlt_eq s, ?_⟩
    constructor <;> simp [Instr.opcode]
    omega

/-! ### Every outcome of a step -/

/-- A fetch that reaches beyond memory. -/
theorem step_outOfBounds {s : State} (hr : s.status = .running) (h : 254 ≤ s.pc) :
    step s = .next (s.raise (.outOfBounds (max 256 (s.pc : Int)))) := by
  have hf : s.fetch = .error (.outOfBounds (max 256 (s.pc : Int))) := by
    unfold State.fetch
    by_cases h1 : s.pc < 256
    · rw [s.memRead_ok h1]
      simp only [bind, Except.bind]
      by_cases h2 : s.pc + 1 < 256
      · have h3 := s.memRead_ok h2
        push_cast at h3
        rw [h3]
        simp only
        rw [s.memRead_error (by omega), show (s.pc : Int) + 2 = max 256 (s.pc : Int) by omega]
      · rw [s.memRead_error (a := (s.pc : Int) + 1) (by omega), show (s.pc : Int) + 1 = max 256 (s.pc : Int) by omega]
    · rw [s.memRead_error (a := (s.pc : Int)) (by omega)]
      simp only [bind, Except.bind]
      rw [show max 256 (s.pc : Int) = (s.pc : Int) by omega]
  refine (step_running hr).trans ?_
  unfold State.cycle
  rw [hf]

/-- EVERY OUTCOME OF A STEP of a running core: the fetch raises, or the decode raises on the checked state, or the
instruction runs on it. -/
theorem step_cases {s : State} (hr : s.status = .running) :
    (254 ≤ s.pc ∧ step s = .next (s.raise (.outOfBounds (max 256 (s.pc : Int))))) ∨
      (s.pc ≤ 253 ∧ decodeLatch s.latch = none ∧
        step s = .next (s.checked.raise (.unknownInstruction (s.mem.read s.pc) s.pc))) ∨
      (s.pc ≤ 253 ∧ ∃ i, decodeLatch s.latch = some i ∧ step s = exec i s.checked) := by
  by_cases h : 254 ≤ s.pc
  · exact .inl ⟨h, step_outOfBounds hr h⟩
  · have hp : s.pc ≤ 253 := by omega
    cases hd : decodeLatch s.latch with
    | none =>
      refine .inr (.inl ⟨hp, rfl, ?_⟩)
      rw [step_fetched hr hp, State.dispatch_none _ hd, s.checked_same.pc]
      rfl
    | some i =>
      refine .inr (.inr ⟨hp, i, rfl, ?_⟩)
      rw [step_fetched hr hp, State.dispatch_some _ hd]

end Sys2Proof.Machine
end

