-- ==== Sys2Proof/Tests/Slice0.lean ====
section
/-!
SUPPORT. The model's own tests: ill-formed terms refused, words written out from the opcode map, at most two steps per
instruction with results from the spec's vectors (section 2 of 95_test_vectors.md), and a witness for the hypotheses of
each obligation that has some.
-/

namespace Sys2Proof.Tests

open Sys2Proof.Machine

/-! ### Helpers -/

/-- A running core with given registers, pc, end-of-stack boundary and memory, no timer event in its next step. -/
def core (regs : Vector Byte 8) (pc eos : Nat := 0) (mem : Memory := []) : State :=
  { State.reset with regs := regs, pc := pc, eos := eos, mem := mem, ticks := [false] }

/-- The next state, if there is one. -/
def nextOf : StepOutcome → Option State
  | .next s => some s
  | .fault _ => none
  | .refused _ => none

/-- One number seen in the next state. -/
def see (o : StepOutcome) (f : State → Nat) : Option Nat := (nextOf o).map f

/-- The status of the next state. -/
def statusOf (o : StepOutcome) : Option RunStatus := (nextOf o).map State.status

/-! ### WellFormed refuses an ill-formed term for each check -/

theorem test_illFormed_add : Instr.wellFormed (.add 8 0) = false ∧ Instr.wellFormed (.add 0 8) = false := by decide
theorem test_illFormed_mul : Instr.wellFormed (.mul 8 0) = false ∧ Instr.wellFormed (.mul 0 8) = false := by decide
theorem test_illFormed_cmp : Instr.wellFormed (.cmp 9 0) = false ∧ Instr.wellFormed (.cmp 0 9) = false := by decide
theorem test_illFormed_st : Instr.wellFormed (.st 255 0) = false ∧ Instr.wellFormed (.st 0 255) = false := by decide
theorem test_illFormed_ldi : Instr.wellFormed (.ldi 8 0) = false ∧ Instr.wellFormed (.ldi 7 255) = true := by decide
theorem test_illFormed_oneRegister :
    [Instr.push 8, .pop 8, .call 8, .jmp 8, .jeq 8, .jne 8, .prn 8].all (fun i => !i.wellFormed) = true := by decide
theorem test_wellFormed_noOperand : Instr.wellFormed .ret = true ∧ Instr.wellFormed .hlt = true := by decide

/-! ### Decoding of words written out from the opcode map (R57) -/

theorem test_decode_add : decode [0b10100000, 0, 1] = .ok (.add 0 1, []) := by rfl
theorem test_decode_mul : decode [0b10100010, 2, 3] = .ok (.mul 2 3, []) := by rfl
theorem test_decode_cmp : decode [0b10100111, 0, 2] = .ok (.cmp 0 2, []) := by rfl
theorem test_decode_push : decode [0b01000101, 4] = .ok (.push 4, []) := by rfl
theorem test_decode_pop : decode [0b01000110, 5] = .ok (.pop 5, []) := by rfl
theorem test_decode_call : decode [0b01010000, 6] = .ok (.call 6, []) := by rfl
theorem test_decode_ret : decode [0b00010001] = .ok (.ret, []) := by rfl
theorem test_decode_jmp : decode [0b01010100, 3] = .ok (.jmp 3, []) := by rfl
theorem test_decode_jeq : decode [0b01010101, 4] = .ok (.jeq 4, []) := by rfl
theorem test_decode_jne : decode [0b01010110, 7] = .ok (.jne 7, []) := by rfl
theorem test_decode_ldi : decode [0b10000010, 3, 0xAB] = .ok (.ldi 3 0xAB, []) := by rfl
theorem test_decode_st : decode [0b10000100, 0, 1] = .ok (.st 0 1, []) := by rfl
theorem test_decode_prn : decode [0b01000111, 2] = .ok (.prn 2, []) := by rfl
theorem test_decode_hlt : decode [0b00000001] = .ok (.hlt, []) := by rfl

/-- R62: a register operand of 8 decodes. R55: bytes beyond the count are not taken. -/
theorem test_decode_rest : decode [0x45, 8, 0xFF] = .ok (.push 8, [0xFF]) := by rfl

/-- R53, R59, R61 (V2, V3, V4). -/
theorem test_decode_unknown :
    decode [0x00] = .error (.unknownInstruction 0x00) ∧ decode [0xC0, 0, 0] = .error (.unknownInstruction 0xC0) ∧
      decode [0x83, 0, 0] = .error (.unknownInstruction 0x83) := ⟨rfl, rfl, rfl⟩

/-- A sequence that ends before its instruction does. -/
theorem test_decode_truncated : decode [0xA0, 0] = .error .truncated ∧ decode [] = .error .truncated := ⟨rfl, rfl⟩

/-- The opcode table's numbering: the second byte is bits 15..8. -/
theorem test_decodeTableWord : decodeTableWord 24 0x010082 = some (.ldi 0 1) ∧ decodeTableWord 8 0x82 = some (.ldi 0 0) := by
  decide

/-! ### One step or one instruction each, from the spec's vectors -/

/-- A2. -/
theorem test_add_wraps : see (exec (.add 0 1) (core #v[200, 100, 0, 0, 0, 0, 0, 0xF4])) (fun t => (t.reg 0).toNat) = some 44 := by
  decide
/-- A20. -/
theorem test_add_invalidRegister :
    statusOf (exec (.add 0 8) (core #v[1, 2, 0, 0, 0, 0, 0, 0xF4] 5)) = some (.faulted (.invalidRegister 8 5)) := by decide
/-- A9. -/
theorem test_mul_wraps : see (exec (.mul 0 1) (core #v[255, 255, 0, 0, 0, 0, 0, 0xF4])) (fun t => (t.reg 0).toNat) = some 1 := by
  decide
/-- A12. -/
theorem test_mul_square : see (exec (.mul 2 2) (core #v[0, 0, 16, 0, 0, 0, 0, 0xF4])) (fun t => (t.reg 2).toNat) = some 0 := by
  decide
/-- A13. -/
theorem test_cmp_less : see (exec (.cmp 0 2) (core #v[3, 0, 5, 0, 0, 0, 0, 0xF4])) (fun t => t.fl.toNat) = some 4 := by decide
/-- A17. -/
theorem test_cmp_unsigned : see (exec (.cmp 0 1) (core #v[0x80, 0x7F, 0, 0, 0, 0, 0, 0xF4])) (fun t => t.fl.toNat) = some 2 := by
  decide
/-- K5. -/
theorem test_push_sp :
    see (exec (.push 7) (core #v[0, 0, 0, 0, 0, 0, 0, 0xF4] 0 12)) (fun t => (t.mem.read 0xF3).toNat) = some 0xF3 := by decide
/-- K3. -/
theorem test_push_overflow :
    statusOf (exec (.push 0) (core #v[1, 0, 0, 0, 0, 0, 0, 12] 3 12)) = some (.faulted (.stackOverflow 12 3)) := by decide
/-- K10. -/
theorem test_pop_sp :
    see (exec (.pop 7) (core #v[0, 0, 0, 0, 0, 0, 0, 0xF3] 0 0 [(0xF3, 0x20)])) (fun t => (t.reg 7).toNat) = some 0x21 := by
  decide
/-- K8. -/
theorem test_pop_underflow :
    statusOf (exec (.pop 0) (core #v[0, 0, 0, 0, 0, 0, 0, 0xF9] 3)) = some (.faulted (.stackUnderflow 0xF9 3)) := by decide
/-- K12. -/
theorem test_call_return :
    see (exec (.call 4) (core #v[0, 0, 0, 0, 24, 0, 0, 0xF4] 15 30)) (fun t => (t.mem.read 0xF3).toNat) = some 17 := by decide
/-- K13. -/
theorem test_call_sp : see (exec (.call 7) (core #v[0, 0, 0, 0, 0, 0, 0, 0xF4] 0 2)) State.pc = some 0xF3 := by decide
/-- K15. -/
theorem test_ret : see (exec .ret (core #v[0, 0, 0, 0, 0, 0, 0, 0xF3] 29 0 [(0xF3, 17)])) State.pc = some 17 := by decide
/-- J1. -/
theorem test_jmp : see (exec (.jmp 3) (core #v[0, 0, 0, 0x20, 0, 0, 0, 0xF4])) State.pc = some 0x20 := by decide
/-- J3. -/
theorem test_jeq_taken :
    see (exec (.jeq 4) ((core #v[0, 0, 0, 0, 32, 0, 0, 0xF4] 27).setFl 0x01)) State.pc = some 32 := by decide
/-- J6. -/
theorem test_jeq_noCmp : see (exec (.jeq 4) (core #v[0, 0, 0, 0, 32, 0, 0, 0xF4] 27)) State.pc = some 29 := by decide
/-- J8. -/
theorem test_jne_untaken :
    see (exec (.jne 3) ((core #v[0, 0, 0, 15, 0, 0, 0, 0xF4] 20).setFl 0x01)) State.pc = some 22 := by decide
/-- J9. -/
theorem test_jne_noCmp : see (exec (.jne 3) (core #v[0, 0, 0, 15, 0, 0, 0, 0xF4] 20)) State.pc = some 15 := by decide
/-- M2. -/
theorem test_ldi : see (exec (.ldi 3 0xAB) (core #v[0, 0, 0, 0, 0, 0, 0, 0xF4])) (fun t => (t.reg 3).toNat) = some 0xAB := by
  decide
/-- M5. -/
theorem test_st :
    see (exec (.st 0 1) (core #v[0x40, 0xFF, 0, 0, 0, 0, 0, 0xF4])) (fun t => (t.mem.read 0x40).toNat) = some 0xFF := by decide
/-- M9, V8. -/
theorem test_prn :
    (nextOf (exec (.prn 0) (core #v[255, 0, 0, 0, 0, 0, 0, 0xF4] 253))).map (fun t => (t.out, t.pc)) = some ([255], 255) := by
  decide
/-- M11. -/
theorem test_hlt :
    (nextOf (exec .hlt (core #v[0, 0, 0, 0, 0, 0, 0, 0xF4] 11))).map (fun t => (t.status, t.pc)) = some (.halted, 12) := by
  decide

/-- V2: zero-filled memory is an unknown instruction. -/
theorem test_step_unknown :
    statusOf (step (core #v[0, 0, 0, 0, 0, 0, 0, 0xF4])) = some (.faulted (.unknownInstruction 0x00 0)) := by decide
/-- V5. -/
theorem test_step_outOfBounds :
    statusOf (step (core #v[0, 0, 0, 0, 0, 0, 0, 0xF4] 254)) = some (.faulted (.outOfBounds 256)) := by decide
/-- V6. -/
theorem test_step_last :
    (nextOf (step (core #v[0, 0, 0, 0, 0, 0, 0, 0xF4] 253 0 [(253, 0x01)]))).map (fun t => (t.status, t.pc)) =
      some (.halted, 254) := by decide

/-- I6: one save, bit 7 discarded. -/
theorem test_check_saves_once :
    ((core #v[0, 0, 0, 0, 0, 0xFF, 0x80, 0xF4]).interruptCheck true).regs = #v[0, 0, 0, 0, 0, 0, 0, 0xEB] := by decide
/-- I2, I4: not taken. -/
theorem test_check_masked :
    ((core #v[0, 0, 0, 0, 0, 0, 0, 0xF4]).interruptCheck true).regs = #v[0, 0, 0, 0, 0, 0, 1, 0xF4] ∧
      (core #v[0, 0, 0, 0, 0, 2, 4, 0xF4]).interruptCheck false = core #v[0, 0, 0, 0, 0, 2, 4, 0xF4] := by decide
/-- I8: the save wraps below address 0. -/
theorem test_check_wraps :
    ((core #v[1, 2, 3, 4, 5, 2, 6, 5] 9).interruptCheck false).mem =
      [(0, 3), (1, 2), (2, 1), (4, 9), (254, 5), (255, 4)] := by decide
/-- I9: POP in the step of the save pops the saved R6. -/
theorem test_step_pop_after_save :
    (nextOf (step (core #v[7, 0, 0, 0, 0, 1, 1, 0xF4] 9 0 [(9, 0x46)]))).map State.regs =
      some #v[0, 0, 0, 0, 0, 0, 0, 0xEC] := by decide
/-- I11: the save stays when the opcode byte is unknown. -/
theorem test_step_unknown_after_save :
    (nextOf (step (core #v[7, 0, 0, 0, 0, 1, 1, 0xF4] 9 0 [(9, 0xFF)]))).map (fun t => (t.mem.read 0xF1, t.status)) =
      some (7, .faulted (.unknownInstruction 0xFF 9)) := by decide

/-- R134. -/
theorem test_boot :
    (nextOf (boot [0x47, 0x00, 0x01])).map (fun t => (t.mem, t.eos)) = some ([(0, 0x47), (2, 0x01)], 3) := by decide

/-- The placed word is what the next step runs; nothing of it depends on the free timer input, since IM is 0 at reset. -/
theorem test_withFetchWord :
    (nextOf (step (State.reset.withFetchWord 24 0x080082))).map (fun t => (t.reg 0, t.pc)) = some (8, 3) := by decide

/-! ### Witnesses for the hypotheses of the obligations -/

theorem witness_OnlyTheEncodingDecodesToAnInstruction :
    decode [0x01, 7] = .ok (.hlt, [7]) ∧ decodeLatch ⟨0xA7, 0xFF, 0⟩ = some (.cmp 0xFF 0) := ⟨rfl, rfl⟩

theorem witness_UnlistedOpcodesDecodeToNothing : operandCount 0xC0 = 3 := by decide

theorem witness_StepRunsTheDecodedInstruction :
    let s := core #v[0, 0, 0, 0, 0, 0, 0, 0xF4] 253 0 [(253, 0x47)]
    s.status = .running ∧ s.pc ≤ 253 ∧
      decode [s.mem.read s.pc, s.mem.read (s.pc + 1), s.mem.read (s.pc + 2)] = .ok (.prn 0, [0]) := by
  exact ⟨rfl, by decide, rfl⟩

theorem witness_FetchReadsThreeBytesOrRaises :
    (State.reset.setPc 253).pc ≤ 253 ∧ (State.reset.setPc 254).status = .running ∧ (State.reset.setPc 255).pc = 255 ∧
      256 ≤ (State.reset.setPc 256).pc := by decide

theorem witness_UnlistedOpcodeRaisesUnknownInstruction :
    State.reset.status = .running ∧ State.reset.pc ≤ 253 ∧ State.reset.mem.read State.reset.pc ∉ opcodeTable := by decide

theorem witness_NoStepAfterTheRunEnds :
    (State.reset.setStatus .halted).status = .halted ∧
      (State.reset.raise .fileNotFound).status = .faulted .fileNotFound ∧
      (State.reset.setStatus .halted).status ≠ .running := by decide

theorem witness_RunningCoreAlwaysHasNextState : State.reset.status = .running := rfl

theorem witness_FaultingStepKeepsEverythingButTheStatus :
    statusOf (step (core #v[0, 0, 0, 0, 0, 0, 0, 0xF4] 254)) = some (.faulted (.outOfBounds 256)) ∧
      statusOf (step (core #v[0, 0, 0, 0, 0, 0, 0, 0xF4] 253 0 [(253, 0x11)])) =
        some (.faulted (.stackUnderflow 0xF4 253)) := by decide

theorem witness_ErrorsOfAStepComeInOrder :
    254 ≤ (State.reset.setPc 254).pc ∧ decodeLatch State.reset.latch = none ∧
      decodeLatch (core #v[0, 0, 0, 0, 0, 0, 0, 0xF4] 253 0 [(253, 0xA7), (254, 9), (255, 8)]).latch = some (.cmp 9 8) ∧
      (Instr.cmp 9 8).registerOperands.find? (fun c => !namesRegister c) = some 9 ∧
      Instr.wellFormed (.push 0) = true ∧
      statusOf (step (core #v[0, 0, 0, 0, 0, 0, 0, 3] 253 4 [(253, 0x45)])) = some (.faulted (.stackOverflow 3 253)) ∧
      statusOf (step (core #v[0, 0, 0, 0, 0, 0, 0, 0xF4] 253 0 [(253, 0x11)])) =
        some (.faulted (.stackUnderflow 0xF4 253)) := by decide

theorem witness_OutOfBoundsComesOnlyFromTheFetch :
    (-1 : Int) < 0 ∧ (255 : Int) < 256 ∧
      statusOf (step (core #v[0, 0, 0, 0, 0, 0, 0, 0xF4] 254)) = some (.faulted (.outOfBounds 256)) := by decide

theorem witness_SequentialInstructionsAdvanceByTheirLength :
    setsPc (Instr.opcode .hlt) = false ∧ exec .hlt State.reset = .next ((State.reset.setStatus .halted).setPc 1) :=
  ⟨by decide, rfl⟩

theorem witness_LoadPlacesTheProgramAtZero :
    (List.replicate 256 255).length ≤ 256 ∧ (∀ v ∈ List.replicate 256 255, v ≤ 255) ∧
      256 < (List.replicate 257 0).length ∧ ∃ v ∈ [256], 255 < v := by
  refine ⟨?_, fun v hv => Nat.le_of_eq (List.eq_of_mem_replicate hv), ?_, 256, by decide, by decide⟩
  · rw [List.length_replicate]
  · rw [List.length_replicate]; decide

theorem witness_CanonicalMemoriesThatReadAlikeAreEqual :
    Memory.wf [(0, 1), (255, 2)] = true ∧ Memory.wf [(0, 0)] = false ∧ Memory.wf [(256, 1)] = false ∧
      Memory.wf [(1, 1), (0, 1)] = false := by decide

theorem witness_MemoryChangesOnlyByStoresAndSaves :
    see (step (core #v[0x40, 0xFF, 0, 0, 0, 0, 0, 0xF4] 0 0 [(0, 0x84), (2, 1)])) (fun t => (t.mem.read 0x40).toNat) =
      some 0xFF := by decide

theorem witness_StoreIsSeenByTheNextFetch : (7 : Byte).toNat < 8 ∧ (0 : Byte).toNat < 8 := by decide

theorem witness_registerPair :
    (7 : Byte).toNat < 8 ∧ 8 ≤ (8 : Byte).toNat ∧ 8 ≤ (255 : Byte).toNat ∧ (0 : Byte).toNat < 8 := by decide

theorem witness_AddWritesTheSumModulo256 : (7 : Byte).toNat < 8 ∧ 8 ≤ (8 : Byte).toNat := by decide

theorem witness_MulWritesTheProductModulo256 : (7 : Byte).toNat < 8 ∧ 8 ≤ (8 : Byte).toNat := by decide

theorem witness_CmpWritesTheUnsignedOrder :
    (7 : Byte).toNat < 8 ∧ 8 ≤ (8 : Byte).toNat ∧ (0x7F : Byte).toNat < (0x80 : Byte).toNat := by decide

theorem witness_AluRejectsOtherOperations :
    (0x00 : Byte) ≠ 0xA0 ∧ (0x00 : Byte) ≠ 0xA2 ∧ (0x00 : Byte) ≠ 0xA7 := by decide

theorem witness_PushStoresBelowTheStackPointer :
    let s := core #v[0, 0, 0, 0, 0, 0, 0, 13] 0 12
    let t := core #v[0, 0, 0, 0, 0, 0, 0, 12] 0 12
    (s.eos : Int) ≤ (s.sp.toNat : Int) - 1 ∧ (t.sp.toNat : Int) - 1 < t.eos ∧ (7 : Byte).toNat < 8 ∧ 8 ≤ (8 : Byte).toNat := by
  decide

theorem witness_PopLoadsFromTheStackPointer :
    (core #v[0, 0, 0, 0, 0, 0, 0, 0xF3]).sp.toNat < 0xF4 ∧ 0xF4 ≤ (core #v[0, 0, 0, 0, 0, 0, 0, 0xF4]).sp.toNat ∧
      (7 : Byte).toNat < 8 ∧ 8 ≤ (8 : Byte).toNat := by decide

theorem witness_CallPushesTheReturnAddressAndJumps :
    let s := core #v[0, 0, 0, 0, 0, 0, 0, 1] 253 0
    let t := core #v[0, 0, 0, 0, 0, 0, 0, 0] 0 0
    (s.eos : Int) ≤ (s.sp.toNat : Int) - 1 ∧ s.pc ≤ 253 ∧ (t.sp.toNat : Int) - 1 < t.eos ∧ (7 : Byte).toNat < 8 ∧
      8 ≤ (8 : Byte).toNat := by decide

theorem witness_RetPopsThePc :
    (core #v[0, 0, 0, 0, 0, 0, 0, 0xF3]).sp.toNat < 0xF4 ∧ 0xF4 ≤ (core #v[0, 0, 0, 0, 0, 0, 0, 0xF4]).sp.toNat := by
  decide

theorem witness_StackRoundTripLaws :
    let s := core #v[0, 0, 0, 0, 0, 0, 0, 0xF4] 253 0xF3
    let t := core #v[0, 0, 0, 0, 0, 0, 0, 0xF4] 0 0xF4
    (s.eos : Int) ≤ (s.sp.toNat : Int) - 1 ∧ s.sp.toNat ≤ 0xF4 ∧ s.pc ≤ 253 ∧ (t.sp.toNat : Int) - 1 < t.eos ∧
      (nextOf (exec (.push 0) t)).isSome = true ∧ s.sp = 0xF4 ∧ (nextOf (exec (.pop 7) s)).isSome = true := by decide

theorem witness_JmpSetsThePcToTheRegister : (7 : Byte).toNat < 8 ∧ 8 ≤ (8 : Byte).toNat := by decide

theorem witness_JeqBranchesOnEqual :
    (7 : Byte).toNat < 8 ∧ 8 ≤ (8 : Byte).toNat ∧ (State.reset.setFl 1).fl = 0x01 ∧ State.reset.fl ≠ 0x01 := by decide

theorem witness_JneBranchesOnNotEqual :
    (7 : Byte).toNat < 8 ∧ (0 : Byte).toNat < 8 ∧ 8 ≤ (8 : Byte).toNat ∧ (State.reset.setFl 4).fl ≠ 0x01 ∧ (State.reset.setFl 1).fl = 0x01 := by decide

theorem witness_HltHaltsAndAdvances :
    let s := core #v[0, 0, 0, 0, 0, 0, 0, 0xF4] 253 0 [(253, 0x01)]
    s.status = .running ∧ s.pc ≤ 253 ∧ decodeLatch s.latch = some .hlt := by decide

theorem witness_LdiWritesTheImmediate : (7 : Byte).toNat < 8 ∧ 8 ≤ (8 : Byte).toNat := by decide

theorem witness_StStoresAtTheRegisterAddress : (7 : Byte).toNat < 8 ∧ 8 ≤ (8 : Byte).toNat := by decide

theorem witness_PrnEmitsTheRegister : (7 : Byte).toNat < 8 ∧ 8 ≤ (8 : Byte).toNat := by decide

theorem witness_TimerSetsBitZeroOfTheStatus :
    ¬ (core #v[0, 0, 0, 0, 0, 0xFE, 0, 0xF4]).TakesInterrupt true := by
  simp only [State.TakesInterrupt]; decide

theorem witness_TakenInterruptSavesNineBytes :
    (core #v[0, 0, 0, 0, 0, 0x01, 0, 0] 255).TakesInterrupt true ∧ (core #v[0, 0, 0, 0, 0, 0x80, 0x80, 8]).TakesInterrupt false := by
  simp only [State.TakesInterrupt]; decide

theorem witness_InterruptTransfersNoControl :
    let s := core #v[0, 0, 0, 0, 0, 0x01, 0x01, 0xFF] 253 0 [(253, 0x01)]
    s.status = .running ∧ s.pc ≤ 253 ∧ s.TakesInterrupt s.tickInput ∧ decodeLatch s.latch = some .hlt := by
  simp only [State.TakesInterrupt]; decide

theorem witness_PopAndRetAfterTheSavePopZero :
    let s := core #v[7, 0, 0, 0, 0, 1, 1, 0xFC] 9 0 [(9, 0x46)]
    let t := core #v[7, 0, 0, 0, 0, 1, 1, 0xFC] 9 0 [(9, 0x11)]
    s.status = .running ∧ s.pc ≤ 253 ∧ s.TakesInterrupt s.tickInput ∧ (s.sp - 9).toNat < 0xF4 ∧
      decodeLatch s.latch = some (.pop 0) ∧ t.TakesInterrupt t.tickInput ∧ decodeLatch t.latch = some .ret := by
  simp only [State.TakesInterrupt]; decide

theorem witness_ZeroMaskTakesNoInterrupt :
    (core #v[0, 0, 0, 0, 0, 1, 0, 0xF4]).TakesInterrupt true ∧ (core #v[0, 0, 0, 0, 0, 0, 0xFF, 0xF4]).reg 5 = 0 := by
  simp only [State.TakesInterrupt]; decide

theorem witness_StepSamplesOneTimerInput :
    let s := core #v[0, 0, 0, 0, 0, 0, 0, 0xF4]
    s.status = .running ∧ s.pc ≤ 253 ∧ s.ticks = false :: [] ∧ (nextOf (step s)).isSome = true ∧
      (nextOf (step (s.setPc 254))).isSome = true := by decide

theorem witness_StepKeepsTheInvariant :
    let s := core #v[0, 0, 0, 0, 0, 0, 0, 0xF4] 253 256 [(253, 0x47)]
    s.Inv ∧ (nextOf (step s)).isSome = true := by
  exact ⟨⟨rfl, by decide, by decide, by decide⟩, by decide⟩

theorem witness_LoadedCoreMeetsTheInvariant : (nextOf (boot [0x01])).isSome = true := by decide

theorem witness_OnlyCmpWritesTheFlags :
    see (step (core #v[0, 0, 0, 0, 0, 0, 0, 0xF4] 0 0 [(0, 0xA7)])) (fun t => t.fl.toNat) = some 1 := by decide

theorem witness_NoStepMovesTheEndOfStack : (nextOf (step (core #v[0, 0, 0, 0, 0, 0, 0, 0xF4]))).isSome = true := by decide

theorem witness_OutputGrowsExactlyByPrn :
    let s := core #v[72, 0, 0, 0, 0, 0, 0, 0xF4] 253 0 [(253, 0x47)]
    s.status = .running ∧ s.pc ≤ 253 ∧ decodeLatch s.latch = some (.prn 0) ∧ (nextOf (step s)).map State.out = some [72] := by
  decide

theorem witness_HaltedOnlyByHlt :
    statusOf (step (core #v[0, 0, 0, 0, 0, 0, 0, 0xF4] 253 0 [(253, 0x01)])) = some .halted := by decide

end Sys2Proof.Tests
end

section
/-!
PROOFS. What every step keeps: the invariant, FL but for CMP, the end-of-stack boundary, the output but for PRN, the
status Halted but for HLT, and the timer input that a step samples. All of them are read off one inversion, `step_ends`.
-/

namespace Sys2Proof.Machine

/-! ### What the interrupt check leaves -/

@[simp] theorem State.checked_pc (s : State) : s.checked.pc = s.pc := s.checked_same.pc

@[simp] theorem State.checked_fl (s : State) : s.checked.fl = s.fl := s.checked_same.fl

@[simp] theorem State.checked_eos (s : State) : s.checked.eos = s.eos := s.checked_same.eos

@[simp] theorem State.checked_status (s : State) : s.checked.status = s.status := s.checked_same.status

@[simp] theorem State.checked_out (s : State) : s.checked.out = s.out := s.checked_same.out

@[simp] theorem State.checked_ticks (s : State) : s.checked.ticks = s.ticks.tail := s.checked_same.ticks

@[simp] theorem State.checked_tickIndex (s : State) : s.checked.tickIndex = s.tickIndex + 1 := s.checked_same.tickIndex

theorem State.checked_wf (s : State) (h : s.mem.wf = true) : s.checked.mem.wf = true :=
  s.sampleTick.interruptCheck_wf s.tickInput h

/-! ### The inversion of a step that answers a next state -/

/-- The three ways in which a step of a running core reaches its next state (R68, R116). -/
inductive StepEnds (s : State) : State → Prop where
  /-- The fetch raised, before the timer input was sampled. -/
  | fetchRaises (e : FatalError) (hp : 254 ≤ s.pc) : StepEnds s (s.raise e)
  /-- The decode or the instruction raised, on the state that the interrupt check left. -/
  | checkedRaises (e : FatalError) (hp : s.pc ≤ 253) : StepEnds s (s.checked.raise e)
  /-- The instruction completed on the state that the interrupt check left. -/
  | completes {t : State} (i : Instr) (hp : s.pc ≤ 253) (hd : decodeLatch s.latch = some i)
      (hc : Completes i s.checked t) : StepEnds s t

/-- `exec` answers a next state, which a raised error or the completed instruction leaves. -/
theorem exec_next {i : Instr} {s t : State} (h : exec i s = .next t) : (∃ e, t = s.raise e) ∨ Completes i s t := by
  rcases exec_cases i s with ⟨b, -, hx⟩ | ⟨-, e, hx, -⟩ | ⟨-, u, hx, hc⟩
  all_goals
    obtain rfl := Host.Outcome.next.inj (h.symm.trans hx)
  · exact .inl ⟨_, rfl⟩
  · exact .inl ⟨e, rfl⟩
  · exact .inr hc

theorem step_ends {s t : State} (hr : s.status = .running) (h : step s = .next t) : StepEnds s t := by
  rcases step_cases hr with ⟨hp, hx⟩ | ⟨hp, -, hx⟩ | ⟨hp, i, hd, hx⟩
  · obtain rfl := Host.Outcome.next.inj (h.symm.trans hx)
    exact .fetchRaises _ hp
  · obtain rfl := Host.Outcome.next.inj (h.symm.trans hx)
    exact .checkedRaises _ hp
  · rcases exec_next (hx.symm.trans h) with ⟨e, rfl⟩ | hc
    · exact .checkedRaises e hp
    · exact .completes i hp hd hc

/-- Only a running core has a next state (R67, R77). -/
theorem running_of_step_next {s t : State} (h : step s = .next t) : s.status = .running := by
  cases hs : s.status with
  | running => rfl
  | halted => simp [step, hs] at h
  | faulted e => simp [step, hs] at h

/-- A running core whose latch decodes to `i` runs `i` on the state that the interrupt check left. -/
theorem step_decoded {s : State} {i : Instr} (hr : s.status = .running) (hp : s.pc ≤ 253)
    (hd : decodeLatch s.latch = some i) : step s = exec i s.checked :=
  (step_fetched hr hp).trans (s.checked.dispatch_some hd)

/-! ### The invariant -/

theorem State.Inv.raise {s : State} (h : s.Inv) (e : FatalError) : (s.raise e).Inv :=
  ⟨h.mem_wf, h.pc_le, h.eos_le, h.fl_legal⟩

theorem State.Inv.checked {s : State} (h : s.Inv) : s.checked.Inv where
  mem_wf := s.checked_wf h.mem_wf
  pc_le := s.checked_pc ▸ h.pc_le
  eos_le := s.checked_eos ▸ h.eos_le
  fl_legal := s.checked_fl ▸ h.fl_legal

/-- An instruction that completes from a pc at which three bytes can be fetched keeps the invariant. -/
theorem Completes.inv {i : Instr} {s t : State} (hc : Completes i s t) (h : s.Inv) (hp : s.pc ≤ 253) : t.Inv where
  mem_wf := hc.mem_wf h.mem_wf
  pc_le := hc.pc_le hp
  eos_le := hc.eos ▸ h.eos_le
  fl_legal := by
    by_cases hf : t.fl = s.fl
    · exact hf ▸ h.fl_legal
    · exact (hc.fl hf).2

/-- Settles O42: each of the three ways in which a step ends keeps the invariant. -/
theorem stepKeepsTheInvariant : Obligations.StepKeepsTheInvariant := by
  intro s t hi h
  cases step_ends (running_of_step_next h) h with
  | fetchRaises e => exact hi.raise e
  | checkedRaises e => exact hi.checked.raise e
  | completes i hp _ hc => exact hc.inv hi.checked (by simpa using hp)

/-! ### The fields that a step writes in one way only -/

/-- Settles O45: a raised error leaves FL, and the one instruction that completes with another FL is CMP. -/
theorem onlyCmpWritesTheFlags : Obligations.OnlyCmpWritesTheFlags := by
  intro s t hr h hf
  cases step_ends hr h with
  | fetchRaises e => exact absurd (s.raise_fl e) hf
  | checkedRaises e => exact absurd s.checked_fl hf
  | completes i _ hd hc =>
    obtain ⟨⟨ra, rb, rfl⟩, -⟩ := hc.fl (by simpa using hf)
    exact ⟨ra, rb, hd⟩

/-- Settles O46: neither a raised error, nor the interrupt check, nor an instruction writes `eos`. -/
theorem noStepMovesTheEndOfStack : Obligations.NoStepMovesTheEndOfStack := by
  intro s t h
  cases step_ends (running_of_step_next h) h with
  | fetchRaises e => exact s.raise_eos e
  | checkedRaises e => exact s.checked_eos
  | completes i _ _ hc => exact hc.eos.trans s.checked_eos

/-- A step that runs a PRN of a register appends that register, as the interrupt check left it. -/
theorem out_of_step_prn {s t : State} {r : Byte} (hr : s.status = .running) (hp : s.pc ≤ 253)
    (hd : decodeLatch s.latch = some (.prn r)) (hlt : r.toNat < 8) (h : step s = .next t) :
    t.out = s.out ++ [s.checked.reg ⟨r.toNat, hlt⟩] := by
  rw [step_decoded hr hp hd, exec_prn_ok _ hlt] at h
  obtain rfl := Host.Outcome.next.inj h
  simp

/-- A step that changes the output runs a PRN of a register. -/
theorem prn_of_step_out_ne {s t : State} (hr : s.status = .running) (h : step s = .next t) (ho : t.out ≠ s.out) :
    ∃ r : Byte, r.toNat < 8 ∧ s.pc ≤ 253 ∧ decodeLatch s.latch = some (.prn r) := by
  cases step_ends hr h with
  | fetchRaises e => exact absurd (s.raise_out e) ho
  | checkedRaises e => exact absurd s.checked_out ho
  | completes i hp hd hc =>
    rcases hc.out with hsame | ⟨r, hlt, rfl, -⟩
    · exact absurd (hsame.trans s.checked_out) ho
    · exact ⟨r, hlt, hp, hd⟩

/-- Settles O47, from its two directions. -/
theorem outputGrowsExactlyByPrn : Obligations.OutputGrowsExactlyByPrn :=
  fun _ _ hr h => ⟨fun _ hlt hp hd => out_of_step_prn hr hp hd hlt h, prn_of_step_out_ne hr h⟩

/-- Settles O48: a raised error ends in Faulted, and of the instructions that complete only HLT leaves Running. -/
theorem haltedOnlyByHlt : Obligations.HaltedOnlyByHlt := by
  intro s t hr h
  constructor
  · intro hh
    cases step_ends hr h with
    | fetchRaises e => simp at hh
    | checkedRaises e => simp at hh
    | completes i hp hd hc =>
      by_cases hi : i = .hlt
      · exact ⟨hp, hi ▸ hd⟩
      · simp [hc.status, hi, hr] at hh
  · rintro ⟨hp, hd⟩
    rw [step_decoded hr hp hd, exec_hlt_eq] at h
    obtain rfl := Host.Outcome.next.inj h
    rfl

/-! ### The timer input -/

/-- A step whose fetch succeeds samples one timer input, and a step whose fetch raises none. -/
theorem step_samples {s t : State} (hr : s.status = .running) (h : step s = .next t) :
    (s.pc ≤ 253 → t.tickIndex = s.tickIndex + 1 ∧ t.ticks = s.ticks.tail) ∧
      (254 ≤ s.pc → t.tickIndex = s.tickIndex ∧ t.ticks = s.ticks) := by
  cases step_ends hr h with
  | fetchRaises e hp => exact ⟨fun _ => by omega, fun _ => ⟨rfl, rfl⟩⟩
  | checkedRaises e hp => exact ⟨fun _ => by simp, fun _ => by omega⟩
  | completes i hp _ hc => exact ⟨fun _ => by simp [hc.tickIndex, hc.ticks], fun _ => by omega⟩

/-- Settles O41: an announced input is the one that `checked` hands to the interrupt check. -/
theorem stepSamplesOneTimerInput : Obligations.StepSamplesOneTimerInput := by
  refine ⟨fun s tick rest hr hp ht => ?_, fun s t hr h => step_samples hr h⟩
  have hin : s.tickInput = tick := by simp [State.tickInput, ht]
  have htail : s.sampleTick.ticks = rest := by simp [ht]
  exact ⟨hin ▸ step_fetched hr hp, htail⟩

end Sys2Proof.Machine
end

section
/-!
PROOFS. The memory: a canonical list is fixed by its readings, the steps that can change a byte, and the fetch after a
store.
-/

namespace Sys2Proof.Machine

/-! ### Canonical lists and their readings -/

namespace Memory

@[simp] theorem read_cons_same (a : Nat) (v : Byte) (m : Memory) : Memory.read ((a, v) :: m) a = v := if_pos rfl

theorem read_cons_ne {a c : Nat} (h : c ≠ a) (v : Byte) (m : Memory) : Memory.read ((a, v) :: m) c = m.read c := if_neg h

/-- A canonical list holds its first entry's byte, which is not the construction value. -/
theorem read_head_ne_zero {lo a : Nat} {v : Byte} {m : Memory} (h : Memory.risingFrom lo ((a, v) :: m) = true) :
    Memory.read ((a, v) :: m) a ≠ 0 := by
  obtain ⟨-, -, hv, -⟩ := risingFrom_cons.1 h
  rwa [read_cons_same]

/-- The first entry of a canonical list stands at the lowest address that does not read as the construction value. -/
theorem head_le_of_read_ne_zero {lo a c : Nat} {v : Byte} {m : Memory}
    (h : Memory.risingFrom lo ((a, v) :: m) = true) (hc : Memory.read ((a, v) :: m) c ≠ 0) : a ≤ c := by
  obtain ⟨-, ha, hv, hm⟩ := risingFrom_cons.1 h
  have hself : Memory.risingFrom a ((a, v) :: m) = true := risingFrom_cons.2 ⟨le_rfl, ha, hv, hm⟩
  exact Nat.le_of_not_lt fun hlt => hc (read_of_risingFrom hself hlt)

/-- What stands behind the first entry of a canonical list, by the readings of the whole list. -/
theorem read_tail {lo a : Nat} {v : Byte} {m : Memory} (h : Memory.risingFrom lo ((a, v) :: m) = true) (c : Nat) :
    m.read c = if c = a then 0 else Memory.read ((a, v) :: m) c := by
  obtain ⟨-, -, -, hm⟩ := risingFrom_cons.1 h
  split
  · subst c; exact read_of_risingFrom hm (Nat.lt_succ_self a)
  · exact (read_cons_ne ‹_› v m).symm

/-- Two canonical lists that read alike begin at the same address with the same byte, and so do their tails. -/
theorem eq_of_read_eq {m n : Memory} {lo hi : Nat} (hm : Memory.risingFrom lo m = true)
    (hn : Memory.risingFrom hi n = true) (h : ∀ a, m.read a = n.read a) : m = n := by
  induction m generalizing lo hi n with
  | nil =>
    cases n with
    | nil => rfl
    | cons e n => exact absurd (h e.1).symm (read_head_ne_zero hn)
  | cons e m ih =>
    obtain ⟨a, v⟩ := e
    cases n with
    | nil => exact absurd (h a) (read_head_ne_zero hm)
    | cons f n =>
      obtain ⟨b, w⟩ := f
      have hba : b ≤ a := head_le_of_read_ne_zero hn (h a ▸ read_head_ne_zero hm)
      have hab : a ≤ b := head_le_of_read_ne_zero hm ((h b).symm ▸ read_head_ne_zero hn)
      obtain rfl : a = b := Nat.le_antisymm hab hba
      obtain rfl : v = w := by simpa using h a
      obtain ⟨-, -, -, hm'⟩ := risingFrom_cons.1 hm
      obtain ⟨-, -, -, hn'⟩ := risingFrom_cons.1 hn
      rw [ih hm' hn' fun c => by rw [read_tail hm, read_tail hn, h c]]

end Memory

/-- Settles O17: the canonical form is `risingFrom` address 0. -/
theorem canonicalMemoriesThatReadAlikeAreEqual : Obligations.CanonicalMemoriesThatReadAlikeAreEqual :=
  fun _ _ hm hn h => Memory.eq_of_read_eq hm hn h

/-! ### What changes memory -/

/-- An interrupt check that takes no interrupt leaves memory. -/
theorem State.checked_mem_untaken {s : State} (h : ¬ s.TakesInterrupt s.tickInput) : s.checked.mem = s.mem := by
  have hcheck : s.checked = s.sampleTick.timerStage s.tickInput := s.sampleTick.interruptCheck_untaken h
  rw [hcheck, State.timerStage_mem, State.sampleTick_mem]

/-- Settles O18: without a save, a raised error leaves memory, and so does a completed instruction other than ST, PUSH and
CALL. -/
theorem memoryChangesOnlyByStoresAndSaves : Obligations.MemoryChangesOnlyByStoresAndSaves := by
  intro s t a hr h hne
  by_cases hi : s.TakesInterrupt s.tickInput
  · exact .inl hi
  · have hmem : s.checked.mem = s.mem := State.checked_mem_untaken hi
    right
    cases step_ends hr h with
    | fetchRaises e => exact absurd rfl hne
    | checkedRaises e => exact absurd (congrArg (Memory.read · a) hmem) hne
    | completes i _ hd hc =>
      rcases hc.mem with hsame | hstore
      · exact absurd (congrArg (Memory.read · a) (hsame.trans hmem)) hne
      · exact ⟨i, hd, hstore⟩

/-! ### The fetch after a store -/

/-- Settles O19: the fetch latches three reads of the memory that the store wrote. -/
theorem storeIsSeenByTheNextFetch : Obligations.StoreIsSeenByTheNextFetch := by
  intro s ra rb ha hb
  refine ⟨_, exec_st_ok s ha hb, fun p hp => ?_⟩
  rw [State.fetch_ok _ (by simpa using hp)]
  simp only [State.latch, State.setPc_pc, State.setPc_mem, State.store_mem, Memory.read_write]

end Sys2Proof.Machine
end

section
/-!
PROOFS. Encoding: decode and encode invert each other, and the decoder accepts the fourteen listed opcode bytes only. What
the decoder answers is said once, by `decodeLatch_eq_some`, `decodeLatch_eq_none_iff` and `decode_cons_eq_ok_iff`.
-/

namespace Sys2Proof

/-! ### The shape of an encoding -/

theorem encodingShape (i : Instr) : Laws.EncodingShape.Statement i := by
  cases i with
  | add ra rb => exact Laws.EncodingShape.add ra rb
  | mul ra rb => exact Laws.EncodingShape.mul ra rb
  | cmp ra rb => exact Laws.EncodingShape.cmp ra rb
  | push r => exact Laws.EncodingShape.push r
  | pop r => exact Laws.EncodingShape.pop r
  | call r => exact Laws.EncodingShape.call r
  | ret => exact Laws.EncodingShape.ret
  | jmp r => exact Laws.EncodingShape.jmp r
  | jeq r => exact Laws.EncodingShape.jeq r
  | jne r => exact Laws.EncodingShape.jne r
  | ldi r value => exact Laws.EncodingShape.ldi r value
  | st ra rb => exact Laws.EncodingShape.st ra rb
  | prn r => exact Laws.EncodingShape.prn r
  | hlt => exact Laws.EncodingShape.hlt

theorem Instr.opcode_mem_opcodeTable (i : Instr) : i.opcode ∈ opcodeTable := by
  obtain ⟨-, -, hmem⟩ := encodingShape i
  exact hmem

theorem Instr.length_operands (i : Instr) : i.operands.length = operandCount i.opcode := by
  obtain ⟨-, hlen, -⟩ := encodingShape i
  exact Nat.succ.inj hlen

/-! ### The rows of the opcode table -/

/-- Every row of the table makes an instruction with the row's opcode byte, whose operands are as many of the two operand
bytes as that byte counts (R55, R57). -/
theorem opcodeRows_spec : ∀ row ∈ opcodeRows, ∀ a b : Byte,
    (row.2 a b).opcode = row.1 ∧ (row.2 a b).operands = [a, b].take (operandCount row.1) := by
  simp [opcodeRows, Instr.opcode, Instr.operands]

theorem opcodeTable_nodup : opcodeTable.Nodup := by decide

theorem operandCount_le_two_of_mem : ∀ ir ∈ opcodeTable, operandCount ir ≤ 2 := by decide

/-! ### The decoder of a latch -/

/-- The decoder finds no row exactly when the opcode byte is not in the table. -/
theorem decodeLatch_eq_none_iff (l : Latch) : decodeLatch l = none ↔ l.ir ∉ opcodeTable := by
  simp only [decodeLatch, Option.map_eq_none_iff, List.find?_eq_none, beq_iff_eq, opcodeTable, List.mem_map, not_exists,
    not_and]

/-- The instruction that a latch decodes to has the latch's opcode byte and its operand bytes. -/
theorem decodeLatch_eq_some {l : Latch} {i : Instr} (h : decodeLatch l = some i) :
    i.opcode = l.ir ∧ i.operands = [l.opA, l.opB].take (operandCount l.ir) := by
  obtain ⟨row, hfind, rfl⟩ := Option.map_eq_some_iff.1 h
  have hir : row.1 = l.ir := by simpa using List.find?_some hfind
  exact hir ▸ opcodeRows_spec row (List.mem_of_find?_eq_some hfind) l.opA l.opB

/-- A latch that holds the head of an encoding decodes to the encoded instruction, whatever stands after the encoding. -/
theorem decodeLatch_encode (i : Instr) (rest : List Byte) :
    decodeLatch ⟨i.opcode, (i.operands ++ rest).getD 0 0, (i.operands ++ rest).getD 1 0⟩ = some i := by
  cases i <;> rfl

/-! ### The decoder of a byte sequence -/

/-- Decoding succeeds exactly when the latch decodes and the operand bytes are there; it leaves the bytes after them. -/
theorem decode_cons_eq_ok_iff (ir : Byte) (tail rest : List Byte) (i : Instr) :
    decode (ir :: tail) = .ok (i, rest) ↔
      decodeLatch ⟨ir, tail.getD 0 0, tail.getD 1 0⟩ = some i ∧ operandCount ir ≤ tail.length ∧
        tail.drop (operandCount ir) = rest := by
  simp only [decode]
  cases decodeLatch ⟨ir, tail.getD 0 0, tail.getD 1 0⟩ with
  | none => simp
  | some j =>
    by_cases hl : tail.length < operandCount ir
    · simp [hl]
    · simp [hl, Nat.le_of_not_lt hl]

/-- Up to two operand bytes of a latch are the head of the bytes after the opcode byte, where there are as many. -/
theorem take_latched {n : Nat} {tail : List Byte} (hn : n ≤ 2) (hl : n ≤ tail.length) :
    [tail.getD 0 0, tail.getD 1 0].take n = tail.take n := by
  match tail, n with
  | _, 0 => simp
  | a :: t, 1 => simp
  | a :: b :: t, 2 => simp

/-- The bytes after the opcode byte are the operands of the decoded instruction and the bytes that decoding leaves. -/
theorem bytes_eq_of_decode_cons {ir : Byte} {tail rest : List Byte} {i : Instr}
    (h : decode (ir :: tail) = .ok (i, rest)) : ir :: tail = encode i ++ rest := by
  obtain ⟨hd, hl, rfl⟩ := (decode_cons_eq_ok_iff ..).1 h
  obtain ⟨rfl, hops⟩ := decodeLatch_eq_some hd
  have hn : operandCount i.opcode ≤ 2 := operandCount_le_two_of_mem _ i.opcode_mem_opcodeTable
  rw [take_latched hn hl] at hops
  simp [encode, hops]

/-- Settles O1: the latch at the head of an encoding decodes to its instruction, and the operand count of the opcode byte is
the number of operand bytes that decoding drops. -/
theorem decodeOfEncodeGivesTheInstruction : Obligations.DecodeOfEncodeGivesTheInstruction := by
  intro i rest
  refine (decode_cons_eq_ok_iff ..).2 ⟨decodeLatch_encode i rest, ?_, ?_⟩
  · simp [← i.length_operands]
  · simp [← i.length_operands]

/-- Settles O2: the row that the decoder found fixes the opcode byte and the operand bytes. -/
theorem onlyTheEncodingDecodesToAnInstruction : Obligations.OnlyTheEncodingDecodesToAnInstruction := by
  constructor
  · intro bytes rest i h
    cases bytes with
    | nil => cases h
    | cons ir tail => exact bytes_eq_of_decode_cons h
  · intro l i h
    obtain ⟨hir, -⟩ := decodeLatch_eq_some h
    exact ⟨hir.symm, hir ▸ i.opcode_mem_opcodeTable⟩

/-- Settles O3: each word is the encoding of its instruction, with nothing after it. -/
theorem wordsOfTheOpcodeMapDecode : Obligations.WordsOfTheOpcodeMapDecode :=
  have dec (i : Instr) : decode (encode i ++ []) = .ok (i, []) := decodeOfEncodeGivesTheInstruction i []
  ⟨dec (.add 0 1), dec (.mul 0 1), dec (.cmp 0 2), dec (.push 0), dec .ret, dec (.jeq 4), dec (.ldi 3 0xAB), dec (.st 0 1),
    dec (.prn 0), dec .hlt⟩

/-! ### The fields of the opcode bytes -/

/-- Settles O4: the operand count is the number of operand bytes of the encoding. -/
theorem opcodeFieldsFollowTheInstructions : Obligations.OpcodeFieldsFollowTheInstructions := by
  refine ⟨opcodeTable_nodup, rfl, fun i => ⟨i.opcode_mem_opcodeTable, ?_, ?_⟩⟩
  · rw [← i.length_operands]
    cases i <;> rfl
  · cases i <;> simp [Instr.opcode]

/-! ### The bytes that are not in the table -/

/-- The numbers below 256 whose byte is listed are the listed bytes' values, each once. -/
theorem length_filter_listed :
    ((List.range 256).filter (fun n => decide (BitVec.ofNat 8 n ∈ opcodeTable))).length = opcodeTable.length := by
  have hperm : ((List.range 256).filter (fun n => decide (BitVec.ofNat 8 n ∈ opcodeTable))).Perm
      (opcodeTable.map BitVec.toNat) := by
    refine (List.perm_ext_iff_of_nodup (List.nodup_range.filter _)
      (opcodeTable_nodup.map fun _ _ => BitVec.eq_of_toNat_eq)).2 fun n => ?_
    simp only [List.mem_filter, List.mem_range, decide_eq_true_eq, List.mem_map]
    constructor
    · rintro ⟨hn, hmem⟩
      exact ⟨_, hmem, by simpa using hn⟩
    · rintro ⟨b, hmem, rfl⟩
      exact ⟨b.isLt, by simpa using hmem⟩
  simpa using hperm.length_eq

/-- Of the 256 bytes, those that are not listed are 256 less the fourteen that are. -/
theorem length_filter_unlisted :
    ((List.range 256).filter (fun n => decide (BitVec.ofNat 8 n ∉ opcodeTable))).length = 242 := by
  have hsplit := (List.range 256).length_eq_length_filter_add fun n => decide (BitVec.ofNat 8 n ∈ opcodeTable)
  have hlen : opcodeTable.length = 14 := rfl
  rw [List.length_range, length_filter_listed, hlen] at hsplit
  simp only [decide_not]
  omega

/-- Settles O5: the decoder looks the opcode byte up in the table, and no listed byte counts three operands or is 0x00. -/
theorem unlistedOpcodesDecodeToNothing : Obligations.UnlistedOpcodesDecodeToNothing := by
  refine ⟨fun ir opA opB => decodeLatch_eq_none_iff ⟨ir, opA, opB⟩, length_filter_unlisted, fun ir h3 hmem => ?_, by decide⟩
  have hle := operandCount_le_two_of_mem ir hmem
  omega

end Sys2Proof
end

section
/-!
PROOFS. The cycle of a step: the fetch and the errors that it raises, the decode of the latch, the run of the instruction,
the advance after it, and the states from which no step exists.
-/

namespace Sys2Proof.Machine

/-! ### The fetch -/

/-- Settles O7: the error names the first of the three addresses that is 256 or more. -/
theorem fetchReadsThreeBytesOrRaises : Obligations.FetchReadsThreeBytesOrRaises := by
  refine fun s => ⟨s.fetch_ok, fun hr hp => ?_, fun hr hp => ?_⟩
  · have hmax : max 256 (s.pc : Int) = 256 := by omega
    exact hmax ▸ step_outOfBounds hr (by omega)
  · have hmax : max 256 (s.pc : Int) = s.pc := by omega
    exact hmax ▸ step_outOfBounds hr (by omega)

/-! ### The decode -/

/-- A running core whose latch decodes to nothing raises, on the state that the interrupt check left. -/
theorem step_undecoded {s : State} (hr : s.status = .running) (hp : s.pc ≤ 253) (hd : decodeLatch s.latch = none) :
    step s = .next (s.checked.raise (.unknownInstruction (s.mem.read s.pc) s.pc)) := by
  have hdispatch := s.checked.dispatch_none hd
  rw [s.checked_pc] at hdispatch
  exact (step_fetched hr hp).trans hdispatch

/-- Settles O8: the latch of an unlisted opcode byte decodes to nothing. -/
theorem unlistedOpcodeRaisesUnknownInstruction : Obligations.UnlistedOpcodeRaisesUnknownInstruction := by
  intro s hr hp hop
  have hd : decodeLatch s.latch = none := (decodeLatch_eq_none_iff s.latch).2 hop
  exact ⟨_, step_undecoded hr hp hd, rfl, s.checked_pc⟩

/-- Settles O6: the three bytes at pc are the latch, and decoding them decodes the latch. -/
theorem stepRunsTheDecodedInstruction : Obligations.StepRunsTheDecodedInstruction := by
  intro s i rest hr hp h
  obtain ⟨hd, -, -⟩ := (decode_cons_eq_ok_iff ..).1 h
  exact step_decoded hr hp hd

/-! ### The run of the instruction and the advance -/

/-- Every instruction answers a next state from every state: it raises or completes, and faults or refuses nothing. -/
theorem exec_exists_next (i : Instr) (s : State) : ∃ t, exec i s = .next t := by
  rcases exec_cases i s with ⟨b, -, hx⟩ | ⟨-, e, hx, -⟩ | ⟨-, t, hx, -⟩
  · exact ⟨_, hx⟩
  · exact ⟨_, hx⟩
  · exact ⟨t, hx⟩

/-- Settles O10: the fetch raises, the decode raises, or the instruction answers a next state. -/
theorem runningCoreAlwaysHasNextState : Obligations.RunningCoreAlwaysHasNextState := by
  intro s hr
  rcases step_cases hr with ⟨-, hx⟩ | ⟨-, -, hx⟩ | ⟨-, i, -, hx⟩
  · exact ⟨_, hx⟩
  · exact ⟨_, hx⟩
  · exact hx ▸ exec_exists_next i s.checked

/-- Settles O14: a raised error leaves pc, and an instruction that completes is advanced by the dispatcher. -/
theorem sequentialInstructionsAdvanceByTheirLength : Obligations.SequentialInstructionsAdvanceByTheirLength := by
  intro i s t hseq h
  rcases exec_next h with ⟨e, rfl⟩ | hc
  · exact .inl ⟨e, h, s.raise_pc e⟩
  · exact .inr (hc.pc hseq)

/-! ### The end of a run -/

theorem step_halted {s : State} (h : s.status = .halted) : step s = .fault .halted := by simp [step, h]

theorem step_faulted {s : State} {e : FatalError} (h : s.status = .faulted e) : step s = .fault (.faulted e) := by
  simp [step, h]

/-- Settles O9: a core that has a next state is running. -/
theorem noStepAfterTheRunEnds : Obligations.NoStepAfterTheRunEnds :=
  fun _ => ⟨step_halted, fun _ => step_faulted, fun hne _ h => hne (running_of_step_next h)⟩

end Sys2Proof.Machine
end

section
/-!
PROOFS. The ALU: the byte that ADD and MUL write and the flags that CMP writes, what the three leave alone, and that the
ALU's own error, the one for an operation code it does not know, ends no step.
-/

namespace Sys2Proof.Machine

/-! ### The results -/

theorem toNat_addBytes (a b : Byte) : (addBytes a b).toNat = (a.toNat + b.toNat) % 256 := BitVec.toNat_ofNat ..

theorem toNat_mulBytes (a b : Byte) : (mulBytes a b).toNat = (a.toNat * b.toNat) % 256 := BitVec.toNat_ofNat ..

theorem compareFlags_of_eq {a b : Byte} (h : a.toNat = b.toNat) : compareFlags a b = 0x01 := if_pos h

theorem compareFlags_of_lt {a b : Byte} (h : a.toNat < b.toNat) : compareFlags a b = 0x04 :=
  (if_neg h.ne).trans (if_pos h)

theorem compareFlags_of_gt {a b : Byte} (h : b.toNat < a.toNat) : compareFlags a b = 0x02 :=
  (if_neg h.ne').trans (if_neg h.asymm)

/-! ### The frames -/

/-- A register write and a new pc leave the other registers, memory, `eos` and the timer inputs. -/
theorem State.frame_setReg_setPc (s : State) (i : RegIdx) (v : Byte) (n : Nat) :
    Frame s ((s.setReg i v).setPc n) [i] [] where
  reg _ hr := s.reg_setReg_ne v (List.ne_of_not_mem_cons hr)
  mem _ _ := rfl
  eos := rfl
  ticks := rfl
  tickIndex := rfl

/-- New flags and a new pc leave every register, memory, `eos` and the timer inputs. -/
theorem State.frame_setFl_setPc (s : State) (v : Byte) (n : Nat) : Frame s ((s.setFl v).setPc n) [] [] where
  reg _ _ := rfl
  mem _ _ := rfl
  eos := rfl
  ticks := rfl
  tickIndex := rfl

/-! ### ADD, MUL and CMP -/

/-- Settles O20: ADD is a write of `addBytes` to register a. -/
theorem addWritesTheSumModulo256 : Obligations.AddWritesTheSumModulo256 := by
  refine fun s ra rb => ⟨rfl, fun ha hb => ⟨_, exec_add_ok s ha hb, ?_, rfl, rfl, rfl, rfl, s.frame_setReg_setPc ..⟩,
    exec_add_checks s ra rb⟩
  rw [State.setPc_reg, State.reg_setReg_same, toNat_addBytes]

/-- Settles O21: MUL is a write of `mulBytes` to register a. -/
theorem mulWritesTheProductModulo256 : Obligations.MulWritesTheProductModulo256 := by
  refine fun s ra rb => ⟨rfl, fun ha hb => ⟨_, exec_mul_ok s ha hb, ?_, rfl, rfl, rfl, rfl, s.frame_setReg_setPc ..⟩,
    exec_mul_checks s ra rb⟩
  rw [State.setPc_reg, State.reg_setReg_same, toNat_mulBytes]

/-- Settles O22: CMP writes `compareFlags`, one value for each of the three orders. -/
theorem cmpWritesTheUnsignedOrder : Obligations.CmpWritesTheUnsignedOrder :=
  fun s ra rb => ⟨rfl, fun ha hb => ⟨_, exec_cmp_ok s ha hb,
    ⟨compareFlags_of_eq, compareFlags_of_lt, compareFlags_of_gt⟩, rfl, rfl, rfl, s.frame_setFl_setPc ..⟩,
    exec_cmp_checks s ra rb⟩

/-! ### The errors that can end a step -/

/-- An instruction that completes on a running core leaves it running or halted. -/
theorem Completes.not_faulted {i : Instr} {s t : State} (hc : Completes i s t) (hr : s.status = .running)
    (e : FatalError) : t.status ≠ .faulted e := by
  rw [hc.status, hr]
  split <;> simp

/-- The error in which an instruction ends on a running core is that of a register operand or a stack check. -/
theorem exec_faulted_cases {i : Instr} {s t : State} {e : FatalError} (hr : s.status = .running) (h : exec i s = .next t)
    (hf : t.status = .faulted e) : (∃ b, e = .invalidRegister b s.pc) ∨ StackError i s e := by
  rcases exec_cases i s with ⟨b, -, hx⟩ | ⟨-, e', hx, hstack⟩ | ⟨-, u, hx, hc⟩
  all_goals
    obtain rfl := Host.Outcome.next.inj (h.symm.trans hx)
  · exact .inl ⟨b, (RunStatus.faulted.inj hf).symm⟩
  · exact .inr (RunStatus.faulted.inj hf ▸ hstack)
  · exact absurd hf (hc.not_faulted hr e)

/-- The error in which a step ends is that of the fetch, the decode, a register operand or a stack check (R107). -/
theorem step_faulted_cases {s t : State} {e : FatalError} (h : step s = .next t) (hf : t.status = .faulted e) :
    (∃ a, e = .outOfBounds a) ∨ (∃ ir, e = .unknownInstruction ir s.pc) ∨ (∃ b, e = .invalidRegister b s.pc) ∨
      ∃ i, StackError i s.checked e := by
  have hr : s.status = .running := running_of_step_next h
  rcases step_cases hr with ⟨-, hx⟩ | ⟨-, -, hx⟩ | ⟨-, i, -, hx⟩
  · obtain rfl := Host.Outcome.next.inj (h.symm.trans hx)
    exact .inl ⟨_, (RunStatus.faulted.inj hf).symm⟩
  · obtain rfl := Host.Outcome.next.inj (h.symm.trans hx)
    exact .inr (.inl ⟨_, (RunStatus.faulted.inj hf).symm⟩)
  · rcases exec_faulted_cases (s.checked_status.trans hr) (hx.symm.trans h) hf with ⟨b, hb⟩ | hstack
    · exact .inr (.inr (.inl ⟨b, s.checked_pc ▸ hb⟩))
    · exact .inr (.inr (.inr ⟨i, hstack⟩))

/-! ### The ALU's own error -/

/-- The ALU's operation codes are the opcode bytes of ADD, MUL and CMP. -/
theorem State.alu_unsupported (s : State) {op : Byte} (a b : RegIdx) (hadd : op ≠ Opcode.add) (hmul : op ≠ Opcode.mul)
    (hcmp : op ≠ Opcode.cmp) : s.alu op a b = .error (.unsupportedALUOperation op) := by
  simp [State.alu, hadd, hmul, hcmp]

/-- Settles O23: none of the errors that can end a step is the ALU's. -/
theorem aluRejectsOtherOperations : Obligations.AluRejectsOtherOperations := by
  refine ⟨fun s op a b hadd hmul hcmp => s.alu_unsupported a b hadd hmul hcmp, fun s t op h hf => ?_⟩
  rcases step_faulted_cases h hf with ⟨_, he⟩ | ⟨_, he⟩ | ⟨_, he⟩ | ⟨_, ⟨he, -⟩ | ⟨he, -⟩⟩ <;> cases he

end Sys2Proof.Machine
end

section
/-!
PROOFS. The stack: what a push and a pop leave in SP, in memory and in the named register, what they leave alone, and the
laws that tie a push to the pop that follows it. R7 as operand is the one split: there the register is SP itself.
-/

namespace Sys2Proof.Machine

/-! ### SP -/

/-- The operand byte that names SP is 7. -/
theorem regIdx_eq_spIndex_iff {r : Byte} (h : r.toNat < 8) : (⟨r.toNat, h⟩ : RegIdx) = Config.spIndex ↔ r = 7 :=
  Fin.ext_iff.trans (BitVec.toNat_inj (y := 7))

/-- The register that PUSH stores and that CALL jumps to, read after the decrement. -/
theorem State.decSp_reg_operand (s : State) {r : Byte} (h : r.toNat < 8) :
    s.decSp.reg ⟨r.toNat, h⟩ = if r = 7 then s.sp - 1 else s.reg ⟨r.toNat, h⟩ := by
  simp only [s.decSp_reg, regIdx_eq_spIndex_iff h]

/-- Without an underflow the incremented SP is the integer one more. -/
theorem State.toNat_sp_add_one (s : State) (h : s.sp.toNat < 0xF4) : (s.sp + 1).toNat = s.sp.toNat + 1 := by
  generalize s.sp = b at h ⊢; bv_omega

theorem State.toNat_decSp_sp (s : State) (ho : (s.eos : Int) ≤ (s.sp.toNat : Int) - 1) :
    s.decSp.sp.toNat = s.sp.toNat - 1 := by
  rw [s.decSp_sp, s.toNat_sp_sub_one ho]

/-- A pop after a push that does not overflow does not underflow, unless SP stood above the initial stack top. -/
theorem State.toNat_decSp_sp_lt (s : State) (ho : (s.eos : Int) ≤ (s.sp.toNat : Int) - 1) (htop : s.sp.toNat ≤ 0xF4) :
    s.decSp.sp.toNat < 0xF4 := by
  rw [s.toNat_decSp_sp ho]; omega

theorem State.setReg_sp_same (s : State) (v : Byte) : (s.setReg Config.spIndex v).sp = v := s.reg_setReg_same ..

theorem State.setReg_sp_ne (s : State) {i : RegIdx} (hi : i ≠ Config.spIndex) (v : Byte) : (s.setReg i v).sp = s.sp :=
  s.reg_setReg_ne v hi.symm

/-- The return address fits in a byte wherever an instruction can be fetched. -/
theorem toNat_returnAddress {pc : Nat} (h : pc ≤ 253) : (BitVec.ofNat 8 (pc + 2)).toNat = pc + 2 :=
  Nat.mod_eq_of_lt (by omega)

/-! ### PUSH and CALL

Both end in a state of the form `(s.decSp.store (s.sp - 1) v).setPc n`. -/

/-- A push and a new pc leave the registers but SP and memory but the new stack top. -/
theorem State.frame_push (s : State) (v : Byte) (n : Nat) :
    Frame s ((s.decSp.store (s.sp - 1) v).setPc n) [7] [s.decSp.sp.toNat] where
  reg _ hr := s.reg_setReg_ne _ (List.ne_of_not_mem_cons hr)
  mem _ ha := Memory.read_write_ne _ _ (s.decSp_sp ▸ List.ne_of_not_mem_cons ha)
  eos := rfl
  ticks := rfl
  tickIndex := rfl

/-- The new stack top holds the pushed byte. -/
theorem State.load_push (s : State) (v : Byte) : (s.decSp.store (s.sp - 1) v).load s.decSp.sp = v := by
  rw [s.decSp_sp]; exact Memory.read_write_same ..

/-- Settles O24: PUSH pushes the register as it is after the decrement. -/
theorem pushStoresBelowTheStackPointer : Obligations.PushStoresBelowTheStackPointer := by
  refine fun s r => ⟨rfl, fun h ho => ?_, fun h ho => exec_push_overflow s h ho, exec_push_checks s r⟩
  have hsp := s.toNat_decSp_sp ho
  exact ⟨_, exec_push_ok s h ho, hsp, hsp, (s.load_push _).trans (s.decSp_reg_operand h), rfl, rfl, rfl, rfl,
    s.frame_push ..⟩

/-- Settles O26: CALL pushes pc + 2, a byte for a pc that can be fetched from, and jumps to the register as it is after
the decrement. -/
theorem callPushesTheReturnAddressAndJumps : Obligations.CallPushesTheReturnAddressAndJumps := by
  refine fun s r => ⟨rfl, fun h ho => ?_, fun h ho => exec_call_overflow s h ho, exec_call_checks s r⟩
  have hsp := s.toNat_decSp_sp ho
  refine ⟨_, exec_call_ok s h ho, hsp, hsp, fun hpc => ?_, congrArg BitVec.toNat (s.decSp_reg_operand h), rfl, rfl, rfl,
    s.frame_push ..⟩
  exact (congrArg BitVec.toNat (s.load_push _)).trans (toNat_returnAddress hpc)

/-! ### POP and RET -/

/-- A pop into a register and a new pc leave the other registers but SP, and all of memory. -/
theorem State.frame_pop (s : State) (i : RegIdx) (v : Byte) (n : Nat) :
    Frame s ((s.setReg i v).incSp.setPc n) [i, 7] [] where
  reg j hj := by
    obtain ⟨hi, hj⟩ := not_or.1 (List.mem_cons.not.1 hj)
    exact ((s.setReg i v).reg_setReg_ne _ (List.ne_of_not_mem_cons hj)).trans (s.reg_setReg_ne v hi)
  mem _ _ := rfl
  eos := rfl
  ticks := rfl
  tickIndex := rfl

/-- A register other than SP holds the popped byte. -/
theorem State.reg_pop (s : State) {i : RegIdx} (hi : i ≠ Config.spIndex) (v : Byte) :
    (s.setReg i v).incSp.reg i = v := by
  rw [State.incSp_reg, if_neg hi, State.reg_setReg_same]

/-- Settles O25: SP is incremented after the register write, so it is the popped byte that is incremented when the
register is SP. -/
theorem popLoadsFromTheStackPointer : Obligations.PopLoadsFromTheStackPointer := by
  refine fun s r => ⟨rfl, fun h hu => ?_, fun h hu => exec_pop_underflow s h hu, exec_pop_checks s r⟩
  refine ⟨_, exec_pop_ok s h hu, fun hr => ?_, fun hr => ?_, rfl, rfl, rfl, rfl, s.frame_pop ..⟩
  · have hi := (regIdx_eq_spIndex_iff h).not.2 hr
    refine ⟨s.reg_pop hi _, ?_⟩
    rw [State.setPc_sp, State.incSp_sp, s.setReg_sp_ne hi, s.toNat_sp_add_one hu]
  · rw [(regIdx_eq_spIndex_iff h).2 hr, State.setPc_sp, State.incSp_sp, s.setReg_sp_same]
    exact BitVec.toNat_add ..

/-- Settles O27: RET is a write of SP and of pc. -/
theorem retPopsThePc : Obligations.RetPopsThePc := by
  refine fun s => ⟨rfl, fun hu => ⟨_, exec_ret_ok s hu, rfl, ?_, rfl, rfl, rfl, s.frame_setReg_setPc ..⟩,
    exec_ret_underflow s⟩
  rw [State.incSp_sp, State.setPc_sp, s.toNat_sp_add_one hu]

/-! ### The laws

A pop of the byte that a push stored writes to the register what it holds already, also for R7; so the pair moves SP down
and up, and does nothing else to the registers. -/

/-- A decrement of SP and an increment restore every register. -/
theorem State.incSp_decSp_reg (s : State) (j : RegIdx) : s.decSp.incSp.reg j = s.reg j := by
  rw [State.incSp_reg, State.decSp_reg, State.decSp_sp]
  split
  next hj => rw [BitVec.sub_add_cancel, hj, State.sp_eq]
  next => rfl

/-- POP of a byte that the register holds already moves SP and pc only. -/
theorem exec_pop_of_load_eq (s : State) {r : Byte} (h : r.toNat < 8) (hu : s.sp.toNat < 0xF4)
    (hload : s.load s.sp = s.reg ⟨r.toNat, h⟩) : exec (.pop r) s = .next (s.incSp.setPc (s.pc + 2)) := by
  rw [exec_pop_ok s h hu, hload, State.setReg_reg]

/-- RET from any state that holds the return address of a CALL at the SP that the CALL left. -/
theorem exec_ret_of_call {s u : State} (hpc : s.pc ≤ 253) (hu : u.sp.toNat < 0xF4) (hsp : u.sp = s.decSp.sp)
    (hload : u.load u.sp = BitVec.ofNat 8 (s.pc + 2)) : ∃ v, exec .ret u = .next v ∧ v.pc = s.pc + 2 ∧ v.sp = s.sp := by
  refine ⟨_, exec_ret_ok u hu, (congrArg BitVec.toNat hload).trans (toNat_returnAddress hpc), ?_⟩
  rw [State.incSp_sp, State.setPc_sp, hsp, s.decSp_sp, BitVec.sub_add_cancel]

/-- Settles O28: a pop undoes the push before it, and a stack error ends in `State.raise`, which leaves memory and the
registers. -/
theorem stackRoundTripLaws : Obligations.StackRoundTripLaws := by
  refine ⟨fun s r h ho htop => ?_, fun s r h hpc ho htop => ?_, fun s t r h ho ht => ?_, fun s t r h hsp ht => ?_⟩
  · exact ⟨_, _, exec_push_ok s h ho, exec_pop_of_load_eq _ h (s.toNat_decSp_sp_lt ho htop) (s.load_push _),
      s.incSp_decSp_reg _, s.incSp_decSp_reg _⟩
  · refine ⟨_, exec_call_ok s h ho, fun u hsp hmem => ?_⟩
    have hu : u.sp.toNat < 0xF4 := hsp ▸ s.toNat_decSp_sp_lt ho htop
    have hload : u.load u.sp = BitVec.ofNat 8 (s.pc + 2) := by
      rw [State.load, hsp]
      exact hmem.trans (s.load_push _)
    exact exec_ret_of_call hpc hu hsp hload
  · obtain rfl := Host.Outcome.next.inj (ht.symm.trans (exec_push_overflow s h ho))
    exact ⟨rfl, rfl, rfl⟩
  · have hu : 0xF4 ≤ s.sp.toNat := by rw [hsp]; decide
    obtain rfl := Host.Outcome.next.inj (ht.symm.trans (exec_pop_underflow s h hu))
    exact ⟨rfl, rfl, rfl⟩

end Sys2Proof.Machine
end

section
/-!
PROOFS. Flow control: JMP, JEQ and JNE write pc and nothing else, and a branch after a CMP asks whether the two compared
registers are equal.
-/

namespace Sys2Proof.Machine

/-- A new pc leaves every register, memory, `eos` and the timer inputs. -/
theorem State.frame_setPc (s : State) (n : Nat) : Frame s (s.setPc n) [] [] where
  reg _ _ := rfl
  mem _ _ := rfl
  eos := rfl
  ticks := rfl
  tickIndex := rfl

/-- Settles O29: JMP is a write of pc. -/
theorem jmpSetsThePcToTheRegister : Obligations.JmpSetsThePcToTheRegister :=
  fun s r => ⟨rfl, fun h => ⟨_, exec_jmp_ok s h, rfl, rfl, rfl, rfl, s.frame_setPc _⟩, exec_jmp_checks s r⟩

/-- Settles O30: JEQ is a write of pc, which FL = Equal decides. -/
theorem jeqBranchesOnEqual : Obligations.JeqBranchesOnEqual :=
  fun s r => ⟨rfl, fun h => ⟨_, exec_jeq_ok s h, fun heq => if_pos heq, fun hne => if_neg hne, rfl, rfl, rfl,
    s.frame_setPc _⟩, exec_jeq_checks s r⟩

/-- A comparison sets Equal exactly on equal bytes. -/
theorem compareFlags_eq_equal_iff {a b : Byte} : compareFlags a b = 0x01 ↔ a = b := by
  refine ⟨fun hf => BitVec.eq_of_toNat_eq ?_, fun hab => compareFlags_of_eq (congrArg BitVec.toNat hab)⟩
  rcases Nat.lt_trichotomy a.toNat b.toNat with hlt | heq | hgt
  · exact absurd ((compareFlags_of_lt hlt).symm.trans hf) (by decide)
  · exact heq
  · exact absurd ((compareFlags_of_gt hgt).symm.trans hf) (by decide)

/-- Settles O31: JNE is the write of pc with the two values of JEQ exchanged; after a CMP the test on FL is
`compareFlags_eq_equal_iff`, and the CMP has moved pc by 3 already. -/
theorem jneBranchesOnNotEqual : Obligations.JneBranchesOnNotEqual := by
  refine ⟨fun s r => ⟨rfl, fun h => ?_, exec_jne_checks s r⟩, fun s ra rb r ha hb hr => ?_⟩
  · exact ⟨_, exec_jne_ok s h, fun hne => if_neg hne, fun heq => if_pos heq, rfl, rfl, rfl, s.frame_setPc _⟩
  · exact ⟨_, _, _, exec_cmp_ok s ha hb, exec_jeq_ok _ hr, exec_jne_ok _ hr,
      if_congr compareFlags_eq_equal_iff rfl rfl, if_congr compareFlags_eq_equal_iff rfl rfl⟩

end Sys2Proof.Machine
end

section
/-!
PROOFS. Data movement and halt: LDI, ST, PRN and HLT write one register, one byte of memory, the output and the run status,
each with its own advance of pc.
-/

namespace Sys2Proof.Machine

/-! ### The frames -/

/-- A store and a new pc leave every register, the other bytes of memory, `eos` and the timer inputs. -/
theorem State.frame_store_setPc (s : State) (a v : Byte) (n : Nat) : Frame s ((s.store a v).setPc n) [] [a.toNat] where
  reg _ _ := rfl
  mem _ hc := Memory.read_write_ne _ _ (List.ne_of_not_mem_cons hc)
  eos := rfl
  ticks := rfl
  tickIndex := rfl

/-- The pc, the run status and the output stand outside the frame. -/
theorem State.frame_pc_status_out (s : State) (n : Nat) (r : RunStatus) (o : List Byte) :
    Frame s { s with pc := n, status := r, out := o } [] [] where
  reg _ _ := rfl
  mem _ _ := rfl
  eos := rfl
  ticks := rfl
  tickIndex := rfl

/-! ### ST, LDI and PRN -/

/-- Settles O33: ST is a store at the byte in register a, which is the indirect address as it stands. -/
theorem stStoresAtTheRegisterAddress : Obligations.StStoresAtTheRegisterAddress :=
  fun s ra rb => ⟨rfl, fun ha hb => ⟨_, exec_st_ok s ha hb, Memory.read_write_same .., rfl, rfl, rfl, rfl, rfl,
    s.frame_store_setPc ..⟩, exec_st_checks s ra rb⟩

/-- Settles O32: LDI is a write of the immediate to the register. -/
theorem ldiWritesTheImmediate : Obligations.LdiWritesTheImmediate :=
  fun s r v => ⟨rfl, fun h => ⟨_, exec_ldi_ok s h v, s.reg_setReg_same .., rfl, rfl, rfl, rfl,
    s.frame_setReg_setPc ..⟩, exec_ldi_checks s r v⟩

/-- Settles O34: PRN is an append to the output. -/
theorem prnEmitsTheRegister : Obligations.PrnEmitsTheRegister :=
  fun s r => ⟨rfl, fun h => ⟨_, exec_prn_ok s h, rfl, rfl, rfl, rfl, s.frame_pc_status_out ..⟩, exec_prn_checks s r⟩

/-! ### HLT -/

/-- A step that fetches HLT halts the state that the interrupt check left, with pc past the HLT. -/
theorem step_hlt {s : State} (hr : s.status = .running) (hp : s.pc ≤ 253) (hd : decodeLatch s.latch = some .hlt) :
    step s = .next { s.checked with status := .halted, pc := s.pc + 1 } := by
  rw [step_decoded hr hp hd, exec_hlt_eq, State.checked_pc]; rfl

/-- Settles O35: HLT is a write of the status Halted, and only a running core has a next state. -/
theorem hltHaltsAndAdvances : Obligations.HltHaltsAndAdvances :=
  fun s => ⟨rfl, ⟨_, exec_hlt_eq s, rfl, rfl, rfl, rfl, s.frame_pc_status_out ..⟩,
    fun hr hp hd => ⟨_, step_hlt hr hp hd, rfl, fun _ hu => nomatch running_of_step_next hu⟩⟩

end Sys2Proof.Machine
end

section
/-!
PROOFS. Exceptions: the errors of a step, in the order in which they are raised, and what a faulting step keeps; and the
interrupt check: its timer stage, the nine bytes that a taken interrupt saves, and the step that goes on after it.
-/

namespace Sys2Proof.Machine

/-! ### What a faulting step keeps -/

/-- Settles O11: a step that completes its instruction does not end in Faulted, and `State.raise` writes the status only. -/
theorem faultingStepKeepsEverythingButTheStatus : Obligations.FaultingStepKeepsEverythingButTheStatus := by
  intro s t e hr h hf
  cases step_ends hr h with
  | fetchRaises e' hp =>
    obtain rfl : e' = e := RunStatus.faulted.inj hf
    exact ⟨rfl, .inl ⟨hp, rfl⟩⟩
  | checkedRaises e' hp =>
    obtain rfl : e' = e := RunStatus.faulted.inj hf
    exact ⟨s.checked_pc, .inr ⟨hp, rfl⟩⟩
  | completes i _ _ hc => exact absurd hf (hc.not_faulted (s.checked_status.trans hr) e)

/-! ### The order of the errors -/

/-- An instruction is well-formed exactly when the search for an operand that names no register finds none. -/
theorem wellFormed_iff_find?_eq_none (i : Instr) :
    i.wellFormed = true ↔ i.registerOperands.find? (fun c => !namesRegister c) = none := by
  simp [Instr.wellFormed, List.find?_eq_none]

/-- The first register operand that names no register raises, before anything else that the instruction can raise. -/
theorem exec_invalidRegister {i : Instr} (s : State) {b : Byte}
    (hb : i.registerOperands.find? (fun c => !namesRegister c) = some b) :
    exec i s = .next (s.raise (.invalidRegister b s.pc)) := by
  have hwf : i.wellFormed ≠ true := fun h => by simp [(wellFormed_iff_find?_eq_none i).1 h] at hb
  rcases exec_cases i s with ⟨b', hb', hx⟩ | ⟨h, -⟩ | ⟨h, -⟩
  · obtain rfl := Option.some.inj (hb.symm.trans hb')
    exact hx
  · exact absurd h hwf
  · exact absurd h hwf

/-- The only error of a well-formed instruction on a running core is that of its stack check. -/
theorem stackError_of_wellFormed {i : Instr} {s t : State} {e : FatalError} (hr : s.status = .running)
    (hwf : i.wellFormed = true) (h : exec i s = .next t) (hf : t.status = .faulted e) : StackError i s e := by
  rcases exec_cases i s with ⟨b, hb, -⟩ | ⟨-, e', hx, hstack⟩ | ⟨-, u, hx, hc⟩
  · simp [(wellFormed_iff_find?_eq_none i).1 hwf] at hb
  · obtain rfl := Host.Outcome.next.inj (h.symm.trans hx)
    exact RunStatus.faulted.inj hf ▸ hstack
  · obtain rfl := Host.Outcome.next.inj (h.symm.trans hx)
    exact absurd hf (hc.not_faulted hr e)

/-- Settles O12: the fetch, the decode, the operands and the stack check, each where the ones before it raise nothing. -/
theorem errorsOfAStepComeInOrder : Obligations.ErrorsOfAStepComeInOrder := by
  intro s hr
  refine ⟨step_outOfBounds hr, step_undecoded hr, fun i b hp hd hb => ?_, fun i t e hp hd hwf h hf => ?_⟩
  · rw [step_decoded hr hp hd, exec_invalidRegister _ hb, s.checked_pc]
    rfl
  · have hx : exec i s.checked = .next t := (step_decoded hr hp hd).symm.trans h
    have hstack : StackError i s.checked e := stackError_of_wellFormed (s.checked_status.trans hr) hwf hx hf
    rwa [StackError, s.checked_pc] at hstack

/-- Settles O13: from a pc that can be fetched from, the error is that of the decode, an operand or a stack check. -/
theorem outOfBoundsComesOnlyFromTheFetch : Obligations.OutOfBoundsComesOnlyFromTheFetch := by
  refine ⟨fun s a v ha => ⟨s.memRead_error (by omega), s.memWrite_error v (by omega)⟩, fun s t a hr h hf => ?_⟩
  rcases step_cases hr with ⟨hp, -⟩ | ⟨-, -, hx⟩ | ⟨-, i, -, hx⟩
  · exact hp
  · obtain rfl := Host.Outcome.next.inj (h.symm.trans hx)
    cases hf
  · rcases exec_faulted_cases (s.checked_status.trans hr) (hx.symm.trans h) hf with ⟨_, he⟩ | ⟨he, -⟩ | ⟨he, -⟩ <;>
      cases he

/-! ### The timer stage -/

/-- The timer stage ors the timer input into bit 0 of R6. -/
theorem State.timerStage_reg_six_getLsbD (s : State) (tick : Bool) (i : Nat) :
    ((s.timerStage tick).reg 6).getLsbD i = (tick && decide (i = 0) || (s.reg 6).getLsbD i) := by
  have his : (s.timerStage tick).reg 6 = if tick then s.reg 6 ||| 0x01 else s.reg 6 := s.timerStage_is tick
  rw [his]
  cases tick with
  | false => simp
  | true => simp [BitVec.getLsbD_one, Bool.or_comm]

/-- Settles O36: the OR adds the input to bit 0 and nothing to another bit, and the stage is a write of R6. -/
theorem timerSetsBitZeroOfTheStatus : Obligations.TimerSetsBitZeroOfTheStatus := by
  refine fun s tick => ⟨?_, fun i hi => ?_, fun r hr => s.timerStage_reg tick hr, rfl, s.interruptCheck_untaken⟩
  · rw [s.timerStage_reg_six_getLsbD, decide_eq_true rfl, Bool.and_true]
  · rw [s.timerStage_reg_six_getLsbD, decide_eq_false hi, Bool.and_false, Bool.false_or]

/-! ### A taken interrupt -/

/-- What the save leaves outside registers and memory, as one equation. -/
theorem State.SameBesides.eq {s t : State} (h : s.SameBesides t) : t = { s with regs := t.regs, mem := t.mem } := by
  obtain ⟨hpc, hfl, heos, hstatus, hout, hticks, hindex⟩ := h
  rw [← hpc, ← hfl, ← heos, ← hstatus, ← hout, ← hticks, ← hindex]

/-- The bytes that a taken interrupt pushes, in push order: the mask and the status are cleared before (R122). -/
def State.savedBytes (s : State) : List Byte :=
  [BitVec.ofNat 8 s.pc, s.fl, s.reg 0, s.reg 1, s.reg 2, s.reg 3, s.reg 4, 0, 0]

section Taken

variable (s : State) {tick : Bool} (h : s.TakesInterrupt tick)
include h

/-- A taken interrupt is nine direct pushes on the state with R5 and R6 cleared. -/
theorem State.interruptCheck_eq_foldl :
    s.interruptCheck tick = s.savedBytes.foldl State.pushDirect (s.timerStage tick).clearInterrupts := by
  rw [s.interruptCheck_taken h, State.takeInterrupt, s.clearInterrupts_savedValues tick, State.savedBytes]

theorem State.interruptCheck_taken_sp : (s.interruptCheck tick).sp = s.sp - 9 := by
  rw [s.interruptCheck_eq_foldl h, State.foldl_pushDirect_sp, s.clearInterrupts_sp tick]
  rfl

theorem State.interruptCheck_taken_reg {r : RegIdx} (hr : r ≠ 7) :
    (s.interruptCheck tick).reg r = if r = 5 ∨ r = 6 then 0 else s.reg r := by
  rw [s.interruptCheck_eq_foldl h, State.foldl_pushDirect_reg _ _ hr, State.clearInterrupts_reg]
  split
  next => rfl
  next hne =>
    obtain ⟨-, h6⟩ := not_or.1 hne
    exact s.timerStage_reg tick h6

/-- The saved byte number `k` lies at SP - (k + 1), modulo 256. -/
theorem State.interruptCheck_taken_read (k : Nat) (hk : k < 9) :
    (s.interruptCheck tick).mem.read (s.sp - BitVec.ofNat 8 (k + 1)).toNat = s.savedBytes[k] := by
  rw [s.interruptCheck_eq_foldl h, ← s.clearInterrupts_sp tick]
  exact State.foldl_pushDirect_read s.savedBytes _ (show 9 ≤ 256 by omega) k hk

/-- The save leaves every byte but its nine. -/
theorem State.interruptCheck_taken_read_ne (a : Nat)
    (ha : ∀ k : Nat, 1 ≤ k → k ≤ 9 → a ≠ (s.sp - BitVec.ofNat 8 k).toNat) :
    (s.interruptCheck tick).mem.read a = s.mem.read a := by
  rw [s.interruptCheck_eq_foldl h, State.foldl_pushDirect_read_ne]
  · rfl
  · intro k hk
    rw [s.clearInterrupts_sp tick]
    exact ha (k + 1) (Nat.succ_pos k) hk

end Taken

/-- Settles O37: SP, the other registers and memory after the nine pushes; a pc of at most 255 is its own low byte. -/
theorem takenInterruptSavesNineBytes : Obligations.TakenInterruptSavesNineBytes := by
  intro s tick h t
  have hread := s.interruptCheck_taken_read h
  refine ⟨s.interruptCheck_taken_reg h (by decide), s.interruptCheck_taken_reg h (by decide), s.interruptCheck_taken_sp h,
    fun r h5 h6 h7 => ?_, fun hpc => ?_, hread 1 (by decide), hread 2 (by decide), hread 3 (by decide),
    hread 4 (by decide), hread 5 (by decide), hread 6 (by decide), hread 7 (by decide), hread 8 (by decide),
    s.interruptCheck_taken_read_ne h, (s.interruptCheck_same tick).eq⟩
  · exact (s.interruptCheck_taken_reg h h7).trans (if_neg (not_or.2 ⟨h5, h6⟩))
  · exact (congrArg BitVec.toNat (hread 0 (by decide))).trans (Nat.mod_eq_of_lt (by omega))

/-- Settles O38: the check of a step is `interruptCheck` on the state with its timer input sampled, and the latch is read
from the state before it. -/
theorem interruptTransfersNoControl : Obligations.InterruptTransfersNoControl := by
  intro s hr hp h
  have hsampled : s.sampleTick.TakesInterrupt s.tickInput := h
  refine ⟨s.checked_pc, State.interruptCheck_taken_sp _ hsampled, State.interruptCheck_taken_reg _ hsampled (by decide),
    State.interruptCheck_taken_reg _ hsampled (by decide), ?_⟩
  split
  next i hd => exact step_decoded hr hp hd
  next hd => exact step_undecoded hr hp hd

/-! ### The zero mask -/

theorem State.not_takesInterrupt_of_mask_zero {s : State} (h : s.reg 5 = 0) (tick : Bool) : ¬ s.TakesInterrupt tick := by
  simp [State.TakesInterrupt, h]

/-- Settles O40: with a zero mask the check is the timer stage, which writes R6 only. -/
theorem zeroMaskTakesNoInterrupt : Obligations.ZeroMaskTakesNoInterrupt := by
  refine ⟨rfl, fun s tick h => s.interruptCheck_taken_reg h (by decide), fun s tick h => ?_⟩
  have hno := State.not_takesInterrupt_of_mask_zero h tick
  rw [s.interruptCheck_untaken hno]
  exact ⟨hno, rfl, fun r hr => s.timerStage_reg tick hr⟩

end Sys2Proof.Machine
end

section
/-!
PROOFS. Construction and the load (R131, R134): what `boot` answers, what it stores, and that a loaded core meets the
invariant; and the pops of a step that has just taken an interrupt (R140).
-/

namespace Sys2Proof.Machine

/-! ### Construction -/

/-- Settles O15: memory is the empty list, and seven of the eight registers hold the initial value 0. -/
theorem resetIsTheConstructionState : Obligations.ResetIsTheConstructionState :=
  ⟨Memory.read_nil, by decide, rfl, rfl, rfl, rfl, rfl⟩

/-- Settles O43: the empty memory list is canonical, pc and `eos` are 0, and FL is the first of its four values. -/
theorem resetMeetsTheInvariant : Obligations.ResetMeetsTheInvariant where
  mem_wf := rfl
  pc_le := Nat.zero_le _
  eos_le := Nat.zero_le _
  fl_legal := List.mem_cons_self

/-! ### What the load answers -/

/-- A program that fits is loaded into the constructed core. -/
theorem boot_eq_next {p : List Nat} (hlen : p.length ≤ 256) (hval : ∀ v ∈ p, v ≤ 255) :
    boot p = .next (State.reset.loadProgram (p.map (BitVec.ofNat 8))) := by
  have hany : ¬ p.any (fun v => decide (255 < v)) = true := by simpa using hval
  rw [boot, if_neg (Nat.not_lt.2 hlen), if_neg hany]

theorem boot_tooLong {p : List Nat} (h : 256 < p.length) : boot p = .refused (.programTooLong p.length) := if_pos h

/-- A value that is no byte is refused; the length is asked first. -/
theorem boot_valueTooLarge {p : List Nat} (h : ∃ v ∈ p, 255 < v) : ∃ r, boot p = .refused r := by
  rcases Nat.lt_or_ge 256 p.length with hlen | hlen
  · exact ⟨_, boot_tooLong hlen⟩
  · have hany : p.any (fun v => decide (255 < v)) = true := by simpa using h
    exact ⟨.programValueTooLarge, by rw [boot, if_neg (Nat.not_lt.2 hlen), if_pos hany]⟩

/-- The load answers a state only for a program that fits, and then the one of `boot_eq_next`. -/
theorem boot_next {p : List Nat} {s : State} (h : boot p = .next s) :
    p.length ≤ 256 ∧ s = State.reset.loadProgram (p.map (BitVec.ofNat 8)) := by
  rcases Nat.lt_or_ge 256 p.length with hlen | hlen
  · cases h.symm.trans (boot_tooLong hlen)
  · by_cases hval : ∃ v ∈ p, 255 < v
    · obtain ⟨r, hr⟩ := boot_valueTooLarge hval
      cases h.symm.trans hr
    · exact ⟨hlen, Host.Outcome.next.inj (h.symm.trans (boot_eq_next hlen (by simpa using hval)))⟩

/-! ### What the load stores -/

/-- A loaded byte lies at its own index. -/
theorem State.loadProgram_read_lt (s : State) {p : List Byte} (hlen : p.length ≤ 256) {k : Nat} (hk : k < p.length) :
    (s.loadProgram p).mem.read k = p[k] := by
  rw [State.loadProgram_mem, Memory.read_writeBytes _ _ _ (by omega), if_pos ⟨Nat.zero_le k, by omega⟩, Nat.sub_zero,
    ← List.getElem_eq_getD]

/-- The load leaves every byte beyond the program. -/
theorem State.loadProgram_read_ge (s : State) {p : List Byte} (hlen : p.length ≤ 256) {k : Nat} (hk : p.length ≤ k) :
    (s.loadProgram p).mem.read k = s.mem.read k := by
  rw [State.loadProgram_mem, Memory.read_writeBytes _ _ _ (by omega), if_neg (by omega)]

/-- Loading a program that fits keeps the invariant. -/
theorem State.Inv.loadProgram {s : State} (h : s.Inv) {p : List Byte} (hlen : p.length ≤ 256) :
    (s.loadProgram p).Inv where
  mem_wf := Memory.wf_writeBytes h.mem_wf 0 p
  pc_le := h.pc_le
  eos_le := hlen
  fl_legal := h.fl_legal

/-- Settles O44: a loaded core is the construction state with a program that fits. -/
theorem loadedCoreMeetsTheInvariant : Obligations.LoadedCoreMeetsTheInvariant := by
  intro p s h
  obtain ⟨hlen, rfl⟩ := boot_next h
  exact State.Inv.loadProgram resetMeetsTheInvariant (by simpa using hlen)

/-- The core that runs the empty program: it fetches byte 0, which is no opcode. -/
theorem step_reset_load_nil : step (State.reset.loadProgram []) =
    .next ((State.reset.loadProgram []).checked.raise (.unknownInstruction 0x00 0)) :=
  step_undecoded rfl (Nat.zero_le _) (by decide)

/-- Settles O16: the loaded values are their own low bytes, since they are at most 255. -/
theorem loadPlacesTheProgramAtZero : Obligations.LoadPlacesTheProgramAtZero := by
  refine ⟨fun p hlen hval => ?_, fun p h => ?_, ?_⟩
  · have hmap : (p.map (BitVec.ofNat 8)).length ≤ 256 := by simpa using hlen
    refine ⟨_, boot_eq_next hlen hval, fun k hk => ?_, fun k hk => ?_, ?_⟩
    · have hbyte : p[k] ≤ 255 := hval _ (List.getElem_mem hk)
      rw [State.loadProgram_read_lt _ hmap (by simpa using hk), List.getElem_map, BitVec.toNat_ofNat]
      exact Nat.mod_eq_of_lt (by omega)
    · exact State.loadProgram_read_ge _ hmap (by simpa using hk)
    · rw [State.loadProgram, List.length_map]
  · rcases h with hlen | hval
    · exact ⟨_, boot_tooLong hlen⟩
    · exact boot_valueTooLarge hval
  · exact ⟨_, _, boot_eq_next (Nat.zero_le _) (by simp), rfl, step_reset_load_nil, rfl⟩

/-! ### The pops of a step that takes an interrupt

R6 is cleared before it is saved, and it is the last of the nine bytes pushed; so the byte at the new SP is 0 (R122). -/

section AfterTheSave

variable {s : State} (h : s.TakesInterrupt s.tickInput)
include h

theorem State.checked_taken_sp : s.checked.sp = s.sp - 9 :=
  State.interruptCheck_taken_sp s.sampleTick h

/-- The byte at the stack top after a save is the saved R6, which is 0. -/
theorem State.checked_taken_load_sp : s.checked.load s.checked.sp = 0 := by
  rw [State.load, State.checked_taken_sp h]
  exact State.interruptCheck_taken_read s.sampleTick h 8 (by decide)

/-- SP after the save and one increment. -/
theorem State.checked_taken_sp_add_one : s.checked.sp + 1 = s.sp - 8 := by
  rw [State.checked_taken_sp h]
  generalize s.sp = b
  bv_omega

theorem exec_pop_checked_taken {r : Byte} (hr : r.toNat < 8) (hu : (s.sp - 9).toNat < 0xF4) :
    exec (.pop r) s.checked = .next ((s.checked.setReg ⟨r.toNat, hr⟩ 0).incSp.setPc (s.pc + 2)) := by
  rw [exec_pop_ok _ hr (State.checked_taken_sp h ▸ hu), State.checked_taken_load_sp h, s.checked_pc]

theorem exec_ret_checked_taken (hu : (s.sp - 9).toNat < 0xF4) :
    exec .ret s.checked = .next (s.checked.setPc 0).incSp := by
  rw [exec_ret_ok _ (State.checked_taken_sp h ▸ hu), State.checked_taken_load_sp h]
  rfl

end AfterTheSave

/-- Settles O39: POP writes 0 before SP is incremented, so POP R7 ends with SP 1. -/
theorem popAndRetAfterTheSavePopZero : Obligations.PopAndRetAfterTheSavePopZero := by
  intro s hrun hpc h hu
  have hstatus : s.checked.status = .running := s.checked_status.trans hrun
  refine ⟨fun r hr hd => ?_, fun hd => ?_⟩
  · refine ⟨_, (step_decoded hrun hpc hd).trans (exec_pop_checked_taken h hr hu), hstatus, fun hne => ?_, fun heq => ?_⟩
    · have hi := (regIdx_eq_spIndex_iff hr).not.2 hne
      refine ⟨s.checked.reg_pop hi 0, ?_⟩
      rw [State.setPc_sp, State.incSp_sp, State.setReg_sp_ne _ hi, State.checked_taken_sp_add_one h]
    · rw [(regIdx_eq_spIndex_iff hr).2 heq, State.setPc_sp, State.incSp_sp, State.setReg_sp_same]
      rfl
  · refine ⟨_, (step_decoded hrun hpc hd).trans (exec_ret_checked_taken h hu), rfl, ?_, hstatus⟩
    rw [State.incSp_sp, State.setPc_sp, State.checked_taken_sp_add_one h]

end Sys2Proof.Machine
end
